-- ==== Sys2Proof/Word.lean ====
section
/-! DEFINITION. The byte, and byte strings as the spec writes them (00_scope.md section 6). -/

namespace Sys2Proof

/-- A byte is 8 bits (00_scope.md section 6, 20_memory.md R61). -/
abbrev Byte := BitVec 8

/-- A byte string: first byte received or transmitted first, no terminator. -/
abbrev Text := List Byte

end Sys2Proof
end

