-- ==== Sys2Proof/Config.lean ====
section
/-! DEFINITION. What an implementation fixes (00_scope.md R8, R9) and the one free value of the model. -/

namespace Sys2Proof

/-- Reset value of DUTY_NOW and DUTY_TARGET, percent (R8). -/
def defaultDuty : Nat := 50

/-- Reset value of FREQ_HZ, and the frequency `Boot` programs the period for, Hz (R8, R251). -/
def defaultFreq : Nat := 20000

/-- The parameters 00_scope.md R9 leaves open. The two refusals of 93_implementation_defined.md
(U7: `C = 0`; U8: `CLK_HZ < 50000`) are the two proof fields: such a configuration cannot be built. -/
structure Config where
  /-- `C`, the capacity of the line buffer in bytes (D2). -/
  cap : Nat
  /-- `CLK_HZ`, the backend's counting rate (D3). -/
  clkHz : Nat
  /-- `TX_EOL`, the bytes that end every reply line (D8). -/
  txEol : Text
  /-- `NESTED_REPLIES`: whether nested and boot invocations of start and stop announce (D9, R178). -/
  nestedReplies : Bool
  /-- `PW`, the width of a backend period or pulse value (D17). No rule inside the block reads it:
  period and pulse are exact naturals there (42_pwm_facade.md R180). -/
  pw : Nat
  cap_pos : 1 ≤ cap := by decide
  clk_ok : 50000 ≤ clkHz := by decide
  deriving DecidableEq, Repr

/-- The illustrative configuration CFG-A of R9, claimed of no real chip. DESIGN CHOICE (log 1): it is
the configuration of `State.reset`; `PW` is 32 there, which nothing reads. -/
def Config.cfgA : Config :=
  { cap := 16, clkHz := 72000000, txEol := [0x0D, 0x0A], nestedReplies := false, pw := 32 }

/-- FREE VALUE (log 4): what byte `a` of LINE_BUF holds while nothing has been stored there since
reset number `draw`. The spec leaves it unspecified (10_state.md R42, D11, U2: any value). -/
opaque Config.freeLineByte : (draw : Nat) → (a : Nat) → Byte

end Sys2Proof
end

