-- ==== Sys2Proof/Syntax.lean ====
section
/-! DEFINITION. The 20 operations of spec/opcode_table.json, one constructor a row. -/

namespace Sys2Proof

/-- The operations. A command's operand is the integer its operand text denotes (30_encoding.md R95,
R97); the facade's operations have the operands of 42_pwm_facade.md. -/
inductive Instr where
  /-- SET, `set <int>` (R142). -/
  | set (v : Int)
  /-- FREQ, `freq <int>` (R143). -/
  | freq (f : Int)
  /-- START (R144). -/
  | start
  /-- STOP (R145). -/
  | stop
  /-- STATUS (R146). -/
  | status
  /-- UNKNOWN, every other line (R147). -/
  | unknown
  /-- RX.CR, the byte 0x0D (R122). -/
  | rxCr
  /-- RX.LF, the byte 0x0A (R123). -/
  | rxLf
  /-- RX.DATA, any other byte (R124). -/
  | rxData (b : Byte)
  /-- RAMP.UP (R191). -/
  | rampUp
  /-- RAMP.DOWN (R192). -/
  | rampDown
  /-- RAMP.HOLD (R193). -/
  | rampHold
  /-- REARM (R126). -/
  | rearm
  /-- TAKE, take_ready_line (R127). -/
  | take
  /-- start(announce) of the facade (R170). -/
  | facadeStart (announce : Bool)
  /-- stop(announce) of the facade (R171). -/
  | facadeStop (announce : Bool)
  /-- set_duty(duty) (R172). -/
  | setDuty (duty : Int)
  /-- set_target(d), `d` an integer 0..100, already clamped (R173). -/
  | setTarget (d : Fin 101)
  /-- set_frequency(f), the case 1000 <= f <= 50000 (R174). -/
  | setFrequencyAccept (f : Int)
  /-- set_frequency(f), the case f < 1000 or f > 50000 (R175). -/
  | setFrequencyReject (f : Int)
  deriving DecidableEq, Repr

/-- The formats of spec/opcode_table.json (R90, R92, R110, R111). -/
inductive Format where
  | P | X | U | BYTE | RAMP | INTERNAL
  deriving DecidableEq, Repr

/-- The format column of spec/opcode_table.json. -/
def Instr.format : Instr → Format
  | .set _ => .P
  | .freq _ => .P
  | .start => .X
  | .stop => .X
  | .status => .X
  | .unknown => .U
  | .rxCr => .BYTE
  | .rxLf => .BYTE
  | .rxData _ => .BYTE
  | .rampUp => .RAMP
  | .rampDown => .RAMP
  | .rampHold => .RAMP
  | .rearm => .INTERNAL
  | .take => .INTERNAL
  | .facadeStart _ => .INTERNAL
  | .facadeStop _ => .INTERNAL
  | .setDuty _ => .INTERNAL
  | .setTarget _ => .INTERNAL
  | .setFrequencyAccept _ => .INTERNAL
  | .setFrequencyReject _ => .INTERNAL

/-- A command is what the dispatcher decodes a line to: formats P, X and U (10_state.md R40). -/
def Instr.isCommand (i : Instr) : Bool :=
  i.format == .P || i.format == .X || i.format == .U

end Sys2Proof
end

