-- ==== Sys2Proof/Machine/State.lean ====
section
/-! DEFINITION. The state of the block (10_state.md), its events, and the reasons a step can stop. -/

namespace Sys2Proof.Machine

/-- The events of 44_main_loop.md R207. -/
inductive Event where
  | reset
  | boot
  | rx (b : Byte)
  | tick
  | loop
  deriving DecidableEq, Repr

/-- What the block does at its output ports (00_scope.md R11 to R14). -/
inductive PortAction where
  /-- `tx`: the bytes of one `Emit`, TX_EOL included (R12). -/
  | tx (bytes : Text)
  /-- `rx_arm` with `rx_addr` (R13). -/
  | arm (addr : Nat)
  | setPeriod (v : Nat)
  | setPulse (v1 v2 v3 : Nat)
  | enable
  | disable
  deriving DecidableEq, Repr

/-- The two exceptions a command can raise (60_exceptions.md R221, R222). -/
inductive CommandError where
  | cmdError
  | freqRangeError
  deriving DecidableEq, Repr

/-- The bytes of LINE_BUF stored since reset, by address, strictly rising; an address not listed has
no stored value (`Memory.wf`). -/
abbrev Memory := List Host.Cell

/-- Everything the spec gives the machine, the configuration it runs under, and three fields of the
model's own: `draw`, `portLog` and `events`. -/
structure State where
  /-- The configuration; no step changes it (00_scope.md R9, log 1). -/
  cfg : Config
  /-- `LINE_BUF` (R22). -/
  lineBuf : Memory
  /-- The model's own: which reset's unspecified LINE_BUF content stands where nothing was stored (log 4). -/
  draw : Nat
  /-- `WRITE_INDEX` (R23). -/
  writeIndex : Nat
  /-- `LINE_READY` (R24). -/
  lineReady : Bool
  /-- `RX_ARMED` (R25). -/
  rxArmed : Bool
  /-- `DUTY_NOW` (R28). -/
  dutyNow : BitVec 7
  /-- `DUTY_TARGET` (R29). -/
  dutyTarget : BitVec 7
  /-- `ENABLED` (R30). -/
  enabled : Bool
  /-- `FREQ_HZ` (R31). -/
  freqHz : BitVec 16
  /-- `LAST_STEP_TICK` (R34). -/
  lastStepTick : BitVec 32
  /-- `TICK` (R35). -/
  tick : BitVec 32
  /-- `PERIOD` (R36). -/
  period : Nat
  /-- `PULSE1` (R37). -/
  pulse1 : Nat
  /-- `PULSE2` (R37). -/
  pulse2 : Nat
  /-- `PULSE3` (R37). -/
  pulse3 : Nat
  /-- `OUT_EN` (R38). -/
  outEn : Bool
  /-- `TXLOG` (R39). -/
  txLog : Text
  /-- The model's own: the actions at the output ports since reset, oldest first (R272, log 8). -/
  portLog : List PortAction
  /-- The spec's model variable `booted` (R207). -/
  booted : Bool
  /-- The model's own: the events still to come, the next one first (R10, log 2). -/
  events : List Event
  deriving DecidableEq, Repr

/-- Why the machine stops. -/
inductive Fault where
  /-- Raised by TAKE when LINE_BUF holds no 0x00 (20_memory.md R74, R216). Safe (log 19). -/
  | lineUnterminated
  /-- Raised by a byte operation whose index is not below C, an address that does not exist (R67).
  No reachable state meets it. Safe (log 7). -/
  | lineAddress
  deriving DecidableEq, Repr

/-- Why an instruction has no meaning. No arm of this model answers it: nothing is refused (R216). -/
inductive Refusal where
  /-- The host's: an instruction without a meaning, by its mnemonic. Safe. -/
  | notModelled (mnemonic : String)
  deriving DecidableEq, Repr

/-- The state after `Reset` (10_state.md R42, 70_reset_and_hazards.md R250) under a configuration, for
reset number `draw`. PERIOD and PULSE1..3 have no reset value in the spec: DESIGN CHOICE 0 (log 5). -/
def State.resetWith (cfg : Config) (draw : Nat) : State where
  cfg := cfg
  lineBuf := []
  draw := draw
  writeIndex := 0
  lineReady := false
  rxArmed := false
  dutyNow := BitVec.ofNat 7 defaultDuty
  dutyTarget := BitVec.ofNat 7 defaultDuty
  enabled := false
  freqHz := BitVec.ofNat 16 defaultFreq
  lastStepTick := 0
  tick := 0
  period := 0
  pulse1 := 0
  pulse2 := 0
  pulse3 := 0
  outEn := false
  txLog := []
  portLog := []
  booted := false
  events := []

/-- The machine right after reset, under CFG-A (log 1), with no event scheduled (log 2). -/
def State.reset : State :=
  State.resetWith Config.cfgA 0

end Sys2Proof.Machine
end

