-- ==== Sys2Proof/Machine/Flags.lean ====
section
/-! DEFINITION. The one-bit flags (10_state.md R41): the only flags the block has, and OUT_EN (R38). -/

namespace Sys2Proof.Machine

/-- Set by the handler at a terminator, never read or cleared by it (40_line_framer.md R129). -/
def setLineReady (s : State) : State := { s with lineReady := true }

/-- Cleared by TAKE only (R127, R129). -/
def clearLineReady (s : State) : State := { s with lineReady := false }

/-- ENABLED, written by start and stop only (10_state.md R30). -/
def setEnabled (v : Bool) (s : State) : State := { s with enabled := v }

/-- RX_ARMED (R25). -/
def setRxArmed (v : Bool) (s : State) : State := { s with rxArmed := v }

/-- OUT_EN, the backend's output enable as last commanded (R38). -/
def setOutEn (v : Bool) (s : State) : State := { s with outEn := v }

end Sys2Proof.Machine
end

