-- ==== Sys2Proof/Machine/Operands.lean ====
section
/-! DEFINITION. Operand forms and the block's arithmetic (42_pwm_facade.md R179 to R181). -/

namespace Sys2Proof.Machine

/-- `clamp(0, 100, v)`, the block's only saturating operation (R181). -/
def clampDuty (v : Int) : Fin 101 :=
  ⟨(max 0 (min 100 v)).toNat, by omega⟩

/-- `FREQ_MIN <= f <= FREQ_MAX` (30_encoding.md R100). -/
def freqInRange (f : Int) : Bool :=
  decide (1000 ≤ f) && decide (f ≤ 50000)

/-- `(CLK_HZ div f) - 1`, division truncating (R179). Negative for no accepted `f`, since
`CLK_HZ >= 50000`. -/
def periodFor (cfg : Config) (f : Int) : Nat :=
  ((cfg.clkHz : Int) / f - 1).toNat

/-- `(d * PERIOD) div 100`, the product exact (R180). -/
def pulseFor (d : Nat) (period : Nat) : Nat :=
  d * period / 100

/-- RAMP_INTERVAL_MS (00_scope.md R8). -/
def rampIntervalMs : BitVec 32 := 20

/-- `(TICK - LAST_STEP_TICK) mod 2^32` (43_ramp_scheduler.md R198). -/
def elapsed (s : State) : BitVec 32 :=
  s.tick - s.lastStepTick

end Sys2Proof.Machine
end

