-- ==== Sys2Proof/WellFormed.lean ====
section
/-! DEFINITION. Which instructions the table gives: the operand ranges of its rows. -/

namespace Sys2Proof

/-- RX.DATA stands for every byte but the two terminators (30_encoding.md R90); the two rows of
set_frequency are its two cases (42_pwm_facade.md R174, R175). Every other operand is unrestricted
(set_target's range 0..100 is its type). -/
def Instr.wf : Instr → Bool
  | .rxData b => b != 0x0D && b != 0x0A
  | .setFrequencyAccept f => decide (1000 ≤ f) && decide (f ≤ 50000)
  | .setFrequencyReject f => decide (f < 1000) || decide (50000 < f)
  | .set _ => true
  | .freq _ => true
  | .start => true
  | .stop => true
  | .status => true
  | .unknown => true
  | .rxCr => true
  | .rxLf => true
  | .rampUp => true
  | .rampDown => true
  | .rampHold => true
  | .rearm => true
  | .take => true
  | .facadeStart _ => true
  | .facadeStop _ => true
  | .setDuty _ => true
  | .setTarget _ => true

end Sys2Proof
end

