-- ==== Sys2Proof/Decode.lean ====
section
/-! DEFINITION. The decoders of 30_encoding.md (bytes, lines, operands), then the encoder. -/

namespace Sys2Proof

/-! ## Byte level (R90) -/

/-- Carriage return (R8; PRESUMED ASCII, log 6). -/
def CR : Byte := 0x0D

/-- Line feed (R8; PRESUMED ASCII, log 6). -/
def LF : Byte := 0x0A

/-- The three byte classes of R90: every byte falls in exactly one. -/
def decodeByte (b : Byte) : Instr :=
  if b = CR then .rxCr else if b = LF then .rxLf else .rxData b

/-! ## Operands (R97) -/

/-- Space, tab, VT and FF, the bytes `ParseInt` skips. -/
def isBlank (b : Byte) : Bool :=
  b == 0x20 || b == 0x09 || b == 0x0B || b == 0x0C

/-- `'0' <= b <= '9'`. -/
def isDigit (b : Byte) : Bool :=
  decide (0x30 ≤ b.toNat) && decide (b.toNat ≤ 0x39)

/-- The first loop of R97: the text from its first byte that is no blank. -/
def skipBlanks : Text → Text
  | [] => []
  | b :: T => if isBlank b then skipBlanks T else b :: T

/-- The second loop of R97, from the value `v` so far: `v` does not wrap, and reading ends at the
first byte that is no digit. -/
def digitsValue : Nat → Text → Nat
  | v, [] => v
  | v, b :: T => if isDigit b then digitsValue (10 * v + (b.toNat - 0x30)) T else v

/-- `ParseInt(T)` (R97). With no digit the value read is 0, so the parse failure of R97 is the same
number. The parser is the spec's decision D7 (log 10). -/
def parseInt (T : Text) : Int :=
  match skipBlanks T with
  | [] => 0
  | b :: U =>
    if b = 0x2D then -(digitsValue 0 U : Int)
    else if b = 0x2B then digitsValue 0 U
    else digitsValue 0 (b :: U)

/-! ## Line level (R92 to R96) -/

/-- `"set "` (R93). -/
def kwSet : Text := [0x73, 0x65, 0x74, 0x20]
/-- `"freq "` (R93). -/
def kwFreq : Text := [0x66, 0x72, 0x65, 0x71, 0x20]
/-- `"start"` (R94). -/
def kwStart : Text := [0x73, 0x74, 0x61, 0x72, 0x74]
/-- `"stop"` (R94). -/
def kwStop : Text := [0x73, 0x74, 0x6F, 0x70]
/-- `"status"` (R94). -/
def kwStatus : Text := [0x73, 0x74, 0x61, 0x74, 0x75, 0x73]

/-- What follows the keyword `p` when the line starts with it, else nothing. -/
def afterKeyword : (p L : Text) → Option Text
  | [], L => some L
  | _ :: _, [] => none
  | a :: p, b :: L => if a = b then afterKeyword p L else none

/-- Format X and the default U, tested after format P (R94, R95). -/
def decodeExact (L : Text) : Instr :=
  if L = kwStart then .start
  else if L = kwStop then .stop
  else if L = kwStatus then .status
  else .unknown

/-- `Decode(L)` (R95): first match wins, in the order of the source's table. Total on any bytes. -/
def decodeLine (L : Text) : Instr :=
  match afterKeyword kwSet L with
  | some T => .set (parseInt T)
  | none =>
    match afterKeyword kwFreq L with
    | some T => .freq (parseInt T)
    | none => decodeExact L

/-- A byte that can stand in a line text: none of 0x00, CR and LF (R91). -/
def isLineByte (b : Byte) : Bool :=
  b != 0x00 && b != CR && b != LF

/-- A line text (R91). -/
def isLineText (L : Text) : Bool :=
  L.all isLineByte

/-- The two encodings of the block: a received byte, and a line text (R90, R91). -/
inductive Code where
  | byte (b : Byte)
  | line (L : Text)
  deriving DecidableEq, Repr

/-- Why bytes are no code of an instruction. -/
inductive DecodeReject where
  /-- The bytes hold a 0x00 or a terminator, so they are no line text (R91). Safe. -/
  | notLineText
  deriving DecidableEq, Repr

/-- The decoder of both levels. -/
def decode : Code → Except DecodeReject Instr
  | .byte b => .ok (decodeByte b)
  | .line L => if isLineText L then .ok (decodeLine L) else .error .notLineText

/-- The `n` bytes of the number `w`, the most significant first: the table compares a line "with
byte 0 most significant" (R93, R94). -/
def bytesOfWord : (n w : Nat) → Text
  | 0, _ => []
  | n + 1, w => BitVec.ofNat 8 (w / 256 ^ n) :: bytesOfWord n w

/-- The code a word of spec/opcode_table.json stands for (log 13): a word of one byte is a received
byte (format BYTE); any other is the bytes of LINE_BUF from index 0, whose text ends at the first
0x00 and at the latest where the word ends (every bit above it is 0, a sentinel). -/
def codeOfTableWord (nbits w : Nat) : Code :=
  let n := (nbits + 7) / 8
  if n = 1 then .byte (BitVec.ofNat 8 w)
  else .line ((bytesOfWord n w).takeWhile (· != 0x00))

/-- The instruction the decoder reads from a word of spec/opcode_table.json. -/
def decodeTableWord (nbits w : Nat) : Option Instr :=
  (decode (codeOfTableWord nbits w)).toOption

/-! ## The encoder -/

/-- The ASCII digit of `d < 10`. -/
def digitByte (d : Nat) : Byte :=
  BitVec.ofNat 8 (0x30 + d)

/-- The digits of `n` before `acc`; `fuel` bounds their number. -/
def decDigits : (fuel n : Nat) → (acc : Text) → Text
  | 0, _, acc => acc
  | fuel + 1, n, acc =>
    if n / 10 = 0 then digitByte (n % 10) :: acc
    else decDigits fuel (n / 10) (digitByte (n % 10) :: acc)

/-- `dec(n)`: the decimal spelling, most significant digit first, no leading zeros (00_scope.md
section 6, R108). -/
def dec (n : Nat) : Text :=
  decDigits (n + 1) n []

/-- The decimal spelling of an integer, with `'-'` (0x2D) before a negative one. -/
def decInt (v : Int) : Text :=
  if v < 0 then 0x2D :: dec v.natAbs else dec v.natAbs

/-- The code of an instruction, from the tables of R90, R93 and R94. UNKNOWN has many lines and is
encoded as the empty one (R102). The formats RAMP and INTERNAL have no code (R110, R111). -/
def encode : Instr → Option Code
  | .set v => some (.line (kwSet ++ decInt v))
  | .freq f => some (.line (kwFreq ++ decInt f))
  | .start => some (.line kwStart)
  | .stop => some (.line kwStop)
  | .status => some (.line kwStatus)
  | .unknown => some (.line [])
  | .rxCr => some (.byte CR)
  | .rxLf => some (.byte LF)
  | .rxData b => some (.byte b)
  | .rampUp => none
  | .rampDown => none
  | .rampHold => none
  | .rearm => none
  | .take => none
  | .facadeStart _ => none
  | .facadeStop _ => none
  | .setDuty _ => none
  | .setTarget _ => none
  | .setFrequencyAccept _ => none
  | .setFrequencyReject _ => none

end Sys2Proof
end

