-- ==== Sys2Proof/Machine/Replies.lean ====
section
/-! DEFINITION. The reply texts of 30_encoding.md R106 and R107 (ASCII, log 6), less TX_EOL. -/

namespace Sys2Proof.Machine

/-- `TARGET <n>%`. -/
def replyTarget (n : Nat) : Text :=
  [0x54, 0x41, 0x52, 0x47, 0x45, 0x54, 0x20] ++ dec n ++ [0x25]

/-- `FREQ <n> Hz`. -/
def replyFreq (n : Nat) : Text :=
  [0x46, 0x52, 0x45, 0x51, 0x20] ++ dec n ++ [0x20, 0x48, 0x7A]

/-- `FREQ ERR`. -/
def replyFreqErr : Text := [0x46, 0x52, 0x45, 0x51, 0x20, 0x45, 0x52, 0x52]

/-- `PWM START`. -/
def replyStart : Text := [0x50, 0x57, 0x4D, 0x20, 0x53, 0x54, 0x41, 0x52, 0x54]

/-- `PWM STOP`. -/
def replyStop : Text := [0x50, 0x57, 0x4D, 0x20, 0x53, 0x54, 0x4F, 0x50]

/-- `Duty: <now>% -> <target>%`. -/
def replyDuty (now target : Nat) : Text :=
  [0x44, 0x75, 0x74, 0x79, 0x3A, 0x20] ++ dec now ++ [0x25, 0x20, 0x2D, 0x3E, 0x20] ++ dec target
    ++ [0x25]

/-- `Freq: <n> Hz`. -/
def replyFreqIs (n : Nat) : Text :=
  [0x46, 0x72, 0x65, 0x71, 0x3A, 0x20] ++ dec n ++ [0x20, 0x48, 0x7A]

/-- `State: ON` or `State: OFF`. -/
def replyState (on : Bool) : Text :=
  [0x53, 0x74, 0x61, 0x74, 0x65, 0x3A, 0x20] ++ (if on then [0x4F, 0x4E] else [0x4F, 0x46, 0x46])

/-- `CMD ERR`. -/
def replyCmdErr : Text := [0x43, 0x4D, 0x44, 0x20, 0x45, 0x52, 0x52]

/-- `=== PWM CONTROLLER READY ===`, 28 bytes (R107). -/
def replyBanner : Text :=
  [0x3D, 0x3D, 0x3D, 0x20, 0x50, 0x57, 0x4D, 0x20, 0x43, 0x4F, 0x4E, 0x54, 0x52, 0x4F, 0x4C, 0x4C,
   0x45, 0x52, 0x20, 0x52, 0x45, 0x41, 0x44, 0x59, 0x20, 0x3D, 0x3D, 0x3D]

/-- The reply that is an exception's whole effect (60_exceptions.md R221, R222). -/
def errorText : CommandError → Text
  | .cmdError => replyCmdErr
  | .freqRangeError => replyFreqErr

end Sys2Proof.Machine
end

