-- ==== Sys2Proof/Machine/Ops.lean ====
section
/-! DEFINITION. The shared operations: the line buffer, the primitives of 00_scope.md section 7, taking
an exception, and the facade's operations of 42_pwm_facade.md. -/

namespace Sys2Proof.Machine

/-! ## Outcomes -/

/-- One action after another: a fault or a refusal ends the event. -/
def andThen (o : Host.Outcome State Fault Refusal) (k : State → Host.Outcome State Fault Refusal) :
    Host.Outcome State Fault Refusal :=
  match o with
  | .next s => k s
  | .fault f => .fault f
  | .refused r => .refused r

/-! ## The line buffer (20_memory.md) -/

/-- The stored byte at `a`, or no value. -/
def Memory.lookup : Memory → Nat → Option Byte
  | [], _ => none
  | c :: m, a => if c.1 = a then some c.2 else Memory.lookup m a

/-- `m` with `b` stored at `a`, addresses kept strictly rising. -/
def Memory.write : Memory → Nat → Byte → Memory
  | [], a, b => [(a, b)]
  | c :: m, a, b =>
    if a < c.1 then (a, b) :: c :: m
    else if a = c.1 then (a, b) :: m
    else c :: Memory.write m a b

/-- Every address of `m` is above `a`. -/
def Memory.above (a : Nat) (m : Memory) : Bool :=
  m.all fun c => decide (a < c.1)

/-- The canonical form: addresses strictly rising. An unlisted address has no value, so no entry can
equal what it reads as. -/
def Memory.wf : Memory → Bool
  | [] => true
  | c :: m => Memory.above c.1 m && Memory.wf m

/-- What an unlisted address reads as (log 4): the free content of the last reset. -/
def unwrittenByte (draw a : Nat) : Byte :=
  Config.freeLineByte draw a

/-- `MemRead(a, 1)`, the byte `LINE_BUF[a]`; a read has no side effect (R66). -/
def State.lineByte (s : State) (a : Nat) : Byte :=
  match s.lineBuf.lookup a with
  | some b => b
  | none => unwrittenByte s.draw a

/-- `MemWrite(a, 1, b)`. -/
def memWrite (a : Nat) (b : Byte) (s : State) : State :=
  { s with lineBuf := s.lineBuf.write a b }

/-- `LineText` (R74) from index `k` on, `fuel` bytes of the buffer left: the bytes before the first
0x00, or none when there is no 0x00. -/
def lineTextFrom (s : State) : (fuel k : Nat) → Option Text
  | 0, _ => none
  | fuel + 1, k =>
    if s.lineByte k = 0x00 then some []
    else (lineTextFrom s fuel (k + 1)).map (s.lineByte k :: ·)

/-- `LineText()` (R74); none stands for its fault LineUnterminated. -/
def lineText (s : State) : Option Text :=
  lineTextFrom s s.cfg.cap 0

/-! ## Primitives (00_scope.md R12 to R14) -/

/-- An action at an output port, recorded in order. -/
def logPort (p : PortAction) (s : State) : State :=
  { s with portLog := s.portLog ++ [p] }

/-- `Emit(text)` (R12): the text and TX_EOL, appended whole. -/
def emit (text : Text) (s : State) : State :=
  logPort (.tx (text ++ s.cfg.txEol)) { s with txLog := s.txLog ++ (text ++ s.cfg.txEol) }

/-- `RxArm(i)` (R13). -/
def rxArm (i : Nat) (s : State) : State :=
  logPort (.arm i) (setRxArmed true s)

/-- `Backend.SetPeriod(v)` (R14). -/
def backendSetPeriod (v : Nat) (s : State) : State :=
  logPort (.setPeriod v) { s with period := v }

/-- `Backend.SetPulse(v1, v2, v3)` (R14). -/
def backendSetPulse (v1 v2 v3 : Nat) (s : State) : State :=
  logPort (.setPulse v1 v2 v3) { s with pulse1 := v1, pulse2 := v2, pulse3 := v3 }

/-- `Backend.Enable()` (R14). -/
def backendEnable (s : State) : State :=
  logPort .enable (setOutEn true s)

/-- `Backend.Disable()` (R14). -/
def backendDisable (s : State) : State :=
  logPort .disable (setOutEn false s)

/-! ## Taking an exception (60_exceptions.md section 1) -/

/-- `raise e`: the error reply and nothing else. Nothing is saved, no mode changes, there is no
handler and no return (R226, R231, R232). -/
def raise (e : CommandError) (s : State) : State :=
  emit (errorText e) s

/-! ## The framer's parts (40_line_framer.md) -/

/-- Landing (R121): the receiver has stored `b` at the armed position; the receive is over. -/
def landing (b : Byte) (s : State) : State :=
  setRxArmed false (memWrite s.writeIndex b s)

/-- REARM (R126). -/
def rearm (s : State) : State :=
  rxArm s.writeIndex s

/-- R122, R123 after the landing: the sentinel 0x00 over the landed byte, the flag, the index. -/
def terminateLine (s : State) : State :=
  { setLineReady (memWrite s.writeIndex 0x00 s) with writeIndex := 0 }

/-- R124, R125 after the landing: the index advances and wraps silently at C. -/
def advanceIndex (s : State) : State :=
  { s with writeIndex := if s.writeIndex + 1 = s.cfg.cap then 0 else s.writeIndex + 1 }

/-- One received byte: landing, the operation of its class, re-arm (R120). The landing's address must
exist (R67, log 7). -/
def receive (b : Byte) (op : State → State) (s : State) : Host.Outcome State Fault Refusal :=
  if s.writeIndex < s.cfg.cap then .next (rearm (op (landing b s))) else .fault .lineAddress

/-- `TAKE()` (R127): what it returns and the state it leaves, or its fault. -/
def takeLine (s : State) : Except Fault (Option Text × State) :=
  if s.lineReady then
    match lineText s with
    | some L => .ok (some L, clearLineReady s)
    | none => .error .lineUnterminated
  else .ok (none, s)

/-! ## The facade's operations (42_pwm_facade.md) -/

/-- `Emit(text)` when `announce` (R178). -/
def announceIf (announce : Bool) (text : Text) (s : State) : State :=
  if announce then emit text s else s

/-- `start(announce)` (R170). -/
def pwmStart (announce : Bool) (s : State) : State :=
  announceIf announce replyStart (setEnabled true (backendEnable s))

/-- `stop(announce)` (R171). -/
def pwmStop (announce : Bool) (s : State) : State :=
  announceIf announce replyStop (setEnabled false (backendDisable s))

/-- `set_duty(duty)` (R172). -/
def pwmSetDuty (duty : Int) (s : State) : State :=
  let d := (clampDuty duty).val
  let pulse := pulseFor d s.period
  { backendSetPulse pulse pulse pulse s with dutyNow := BitVec.ofNat 7 d }

/-- `set_target(d)` (R173). -/
def pwmSetTarget (d : Fin 101) (s : State) : State :=
  { s with dutyTarget := BitVec.ofNat 7 d.val }

/-- `set_frequency(f)` when accepted (R174): stop, period, duty, start, store, reply, in this order. -/
def setFrequencyAccepted (f : Int) (s : State) : State :=
  let s1 := pwmStop s.cfg.nestedReplies s
  let s2 := backendSetPeriod (periodFor s.cfg f) s1
  let s3 := pwmSetDuty s2.dutyNow.toNat s2
  let s4 := pwmStart s.cfg.nestedReplies s3
  emit (replyFreq f.toNat) { s4 with freqHz := BitVec.ofInt 16 f }

/-- `set_frequency(f)` (R174, R175): the operand's range selects the case. -/
def pwmSetFrequency (f : Int) (s : State) : State :=
  if freqInRange f then setFrequencyAccepted f s else raise .freqRangeError s

end Sys2Proof.Machine
end

