-- ==== Sys2Proof/Machine/Commands.lean ====
section
/-! DEFINITION. The commands' rows (41_command_dispatch.md). -/

namespace Sys2Proof.Machine

/-- SET (R142): the clamped value is stored and replied. -/
def execSet (v : Int) (s : State) : Host.Outcome State Fault Refusal :=
  let d := clampDuty v
  .next (emit (replyTarget d.val) (pwmSetTarget d s))

/-- FREQ (R143): all effects are those of set_frequency. -/
def execFreq (f : Int) (s : State) : Host.Outcome State Fault Refusal :=
  .next (pwmSetFrequency f s)

/-- START (R144). -/
def execStart (s : State) : Host.Outcome State Fault Refusal :=
  .next (pwmStart true s)

/-- STOP (R145). -/
def execStop (s : State) : Host.Outcome State Fault Refusal :=
  .next (pwmStop true s)

/-- STATUS (R146): three lines, in this order. -/
def execStatus (s : State) : Host.Outcome State Fault Refusal :=
  let s1 := emit (replyDuty s.dutyNow.toNat s.dutyTarget.toNat) s
  let s2 := emit (replyFreqIs s.freqHz.toNat) s1
  .next (emit (replyState s.enabled) s2)

/-- UNKNOWN (R147). -/
def execUnknown (s : State) : Host.Outcome State Fault Refusal :=
  .next (raise .cmdError s)

end Sys2Proof.Machine
end

