-- ==== Sys2Proof/Machine/Facade.lean ====
section
/-! DEFINITION. The facade's rows (42_pwm_facade.md). -/

namespace Sys2Proof.Machine

/-- start(announce) (R170). -/
def execFacadeStart (announce : Bool) (s : State) : Host.Outcome State Fault Refusal :=
  .next (pwmStart announce s)

/-- stop(announce) (R171). -/
def execFacadeStop (announce : Bool) (s : State) : Host.Outcome State Fault Refusal :=
  .next (pwmStop announce s)

/-- set_duty(duty) (R172). -/
def execSetDuty (duty : Int) (s : State) : Host.Outcome State Fault Refusal :=
  .next (pwmSetDuty duty s)

/-- set_target(d) (R173). -/
def execSetTarget (d : Fin 101) (s : State) : Host.Outcome State Fault Refusal :=
  .next (pwmSetTarget d s)

/-- The accepted case of set_frequency (R174). The row is a case of one operation, which its operand
selects (log 12). -/
def execSetFrequencyAccept (f : Int) (s : State) : Host.Outcome State Fault Refusal :=
  .next (pwmSetFrequency f s)

/-- The rejected case of set_frequency (R175); as above (log 12). -/
def execSetFrequencyReject (f : Int) (s : State) : Host.Outcome State Fault Refusal :=
  .next (pwmSetFrequency f s)

end Sys2Proof.Machine
end

