-- ==== Sys2Proof/Machine/Framer.lean ====
section
/-! DEFINITION. The line framer's rows: RX.CR, RX.LF, RX.DATA, REARM, TAKE (40_line_framer.md). A byte
row's meaning is the whole handling of its byte, landing and re-arm included (R47, R120, log 9). -/

namespace Sys2Proof.Machine

/-- RX.CR (R122). -/
def execRxCr (s : State) : Host.Outcome State Fault Refusal :=
  receive CR terminateLine s

/-- RX.LF (R123). -/
def execRxLf (s : State) : Host.Outcome State Fault Refusal :=
  receive LF terminateLine s

/-- RX.DATA (R124, R125). -/
def execRxData (b : Byte) (s : State) : Host.Outcome State Fault Refusal :=
  receive b advanceIndex s

/-- REARM (R126). -/
def execRearm (s : State) : Host.Outcome State Fault Refusal :=
  .next (rearm s)

/-- TAKE (R127). The line it returns is handed to `process` inside the `Loop` event and stored
nowhere (10_state.md R40); as a row it leaves the state `takeLine` leaves. -/
def execTake (s : State) : Host.Outcome State Fault Refusal :=
  match takeLine s with
  | .ok (_, t) => .next t
  | .error f => .fault f

end Sys2Proof.Machine
end

