-- ==== Sys2Proof/Machine/Ramp.lean ====
section
/-! DEFINITION. The ramp scheduler's rows (43_ramp_scheduler.md). A row's meaning is the whole firing,
the update of LAST_STEP_TICK included (10_state.md R47, R194, log 9). -/

namespace Sys2Proof.Machine

/-- R194: every firing samples the tick. -/
def markFiring (s : State) : State :=
  { s with lastStepTick := s.tick }

/-- RAMP.UP (R191). -/
def execRampUp (s : State) : Host.Outcome State Fault Refusal :=
  .next (pwmSetDuty (s.dutyNow.toNat + 1) (markFiring s))

/-- RAMP.DOWN (R192). -/
def execRampDown (s : State) : Host.Outcome State Fault Refusal :=
  .next (pwmSetDuty (s.dutyNow.toNat - 1) (markFiring s))

/-- RAMP.HOLD (R193). -/
def execRampHold (s : State) : Host.Outcome State Fault Refusal :=
  .next (markFiring s)

/-- Which row a firing selects, by comparison (30_encoding.md R110). -/
def rampSelect (s : State) : Instr :=
  if s.dutyNow.toNat < s.dutyTarget.toNat then .rampUp
  else if s.dutyTarget.toNat < s.dutyNow.toNat then .rampDown
  else .rampHold

end Sys2Proof.Machine
end

