-- ==== Sys2Proof/Machine/Dispatch.lean ====
section
/-! DEFINITION. One arm per constructor of Instr, each one call of that row's meaning. -/

namespace Sys2Proof.Machine

def exec (i : Instr) (s : State) : Host.Outcome State Fault Refusal :=
  match i with
  | .set v => Sys2Proof.Machine.execSet v s
  | .freq f => Sys2Proof.Machine.execFreq f s
  | .start => Sys2Proof.Machine.execStart s
  | .stop => Sys2Proof.Machine.execStop s
  | .status => Sys2Proof.Machine.execStatus s
  | .unknown => Sys2Proof.Machine.execUnknown s
  | .rxCr => Sys2Proof.Machine.execRxCr s
  | .rxLf => Sys2Proof.Machine.execRxLf s
  | .rxData b => Sys2Proof.Machine.execRxData b s
  | .rampUp => Sys2Proof.Machine.execRampUp s
  | .rampDown => Sys2Proof.Machine.execRampDown s
  | .rampHold => Sys2Proof.Machine.execRampHold s
  | .rearm => Sys2Proof.Machine.execRearm s
  | .take => Sys2Proof.Machine.execTake s
  | .facadeStart announce => Sys2Proof.Machine.execFacadeStart announce s
  | .facadeStop announce => Sys2Proof.Machine.execFacadeStop announce s
  | .setDuty duty => Sys2Proof.Machine.execSetDuty duty s
  | .setTarget d => Sys2Proof.Machine.execSetTarget d s
  | .setFrequencyAccept f => Sys2Proof.Machine.execSetFrequencyAccept f s
  | .setFrequencyReject f => Sys2Proof.Machine.execSetFrequencyReject f s

end Sys2Proof.Machine
end

