-- ==== Sys2Proof/Machine/Events.lean ====
section
/-! DEFINITION. The five events (44_main_loop.md, 70_reset_and_hazards.md), when each is enabled, and
the one step over the schedule. -/

namespace Sys2Proof.Machine

/-- `RampCheck()` (43_ramp_scheduler.md R190). -/
def rampCheck (s : State) : Host.Outcome State Fault Refusal :=
  if rampIntervalMs ≤ elapsed s then exec (rampSelect s) s else .next s

/-- `process(L)` (41_command_dispatch.md R141): decode, then execute. -/
def process (L : Text) (s : State) : Host.Outcome State Fault Refusal :=
  exec (decodeLine L) s

/-- The `Loop` event (R208): TAKE, the line if there is one, then the ramp. -/
def loopEvent (s : State) : Host.Outcome State Fault Refusal :=
  match takeLine s with
  | .error f => .fault f
  | .ok (none, t) => rampCheck t
  | .ok (some L, t) => andThen (process L t) rampCheck

/-- The `Rx(b)` event (40_line_framer.md R120). -/
def rxEvent (b : Byte) (s : State) : Host.Outcome State Fault Refusal :=
  exec (decodeByte b) s

/-- The `Tick` event (R210). -/
def tickEvent (s : State) : Host.Outcome State Fault Refusal :=
  .next { s with tick := s.tick + 1 }

/-- The `Boot` event (R251), its actions in the order of the rule. -/
def bootEvent (s : State) : Host.Outcome State Fault Refusal :=
  let s1 := backendSetPeriod (periodFor s.cfg defaultFreq) s
  let s2 := pwmSetDuty defaultDuty s1
  let s3 := pwmStart s.cfg.nestedReplies s2
  let s4 := emit replyBanner s3
  let s5 := rxArm 0 s4
  .next { s5 with booted := true }

/-- The `Reset` event (R250). The configuration and what the environment will do next are no state of
the block and stay; LINE_BUF's unspecified content is drawn afresh (log 4). -/
def resetEvent (s : State) : Host.Outcome State Fault Refusal :=
  .next { State.resetWith s.cfg (s.draw + 1) with events := s.events }

/-- The enabling conditions of R207. -/
def enabledEvent (e : Event) (s : State) : Bool :=
  match e with
  | .reset => true
  | .boot => !s.booted
  | .rx _ => s.booted && s.rxArmed
  | .tick => s.booted
  | .loop => s.booted

/-- The effect of an event (R207). -/
def runEvent (e : Event) (s : State) : Host.Outcome State Fault Refusal :=
  match e with
  | .reset => resetEvent s
  | .boot => bootEvent s
  | .rx b => rxEvent b s
  | .tick => tickEvent s
  | .loop => loopEvent s

/-- What the main loop does when nothing else is scheduled: `Boot` once, then `Loop` for ever (R206). -/
def mainLoopEvent (s : State) : Event :=
  if s.booted then .loop else .boot

/-- One event of the schedule; with none left, the main loop's own (log 2). A scheduled event that is
not enabled does not happen and leaves no trace (R207, log 3). -/
def stepEvent (s : State) : Host.Outcome State Fault Refusal :=
  match s.events with
  | [] => runEvent (mainLoopEvent s) s
  | e :: rest =>
    if enabledEvent e s then runEvent e { s with events := rest } else .next { s with events := rest }

/-- `L` and the sentinel in LINE_BUF from index `a` on, as far as the buffer reaches. -/
def storeLine (s : State) : (a : Nat) → (L : Text) → State
  | a, [] => if a < s.cfg.cap then memWrite a 0x00 s else s
  | a, b :: L => if a < s.cfg.cap then memWrite a b (storeLine s (a + 1) L) else s

/-- `s` with a code placed where the next step takes it (log 14): a byte as the next event of an armed
receive; a line in LINE_BUF, ready, with `Loop` the next event. -/
def placeCode (s : State) : Code → State
  | .byte b => { s with booted := true, rxArmed := true, events := .rx b :: s.events }
  | .line L => { storeLine s 0 L with booted := true, lineReady := true, events := .loop :: s.events }

end Sys2Proof.Machine
end

