-- ==== Sys2Proof/Machine/Step.lean ====
section
/-! DEFINITION. One step, and placing a table word for the next one. -/

namespace Sys2Proof.Machine

/-- One step of the machine: one event (00_scope.md R10, 44_main_loop.md R207). -/
def step (s : State) : Host.Outcome State Fault Refusal :=
  stepEvent s

/-- `s` with the instruction of a table word placed so that the next step runs it (log 14). -/
def State.withFetchWord (s : State) (nbits w : Nat) : State :=
  placeCode s (codeOfTableWord nbits w)

end Sys2Proof.Machine
end

