-- ==== Sys2Proof/Safety.lean ====
section
/-! DEFINITION. What claims about runs are stated in: the invariants of the spec, views of a state, and
what a step adds to the logs. -/

namespace Sys2Proof.Machine

/-! ## Invariants -/

/-- The line buffer and its index: the canonical form, no byte stored outside 0..C-1 (20_memory.md
R67), and `0 <= WRITE_INDEX < C` (10_state.md R26 (a)). -/
structure FramerInv (s : State) : Prop where
  wf : Memory.wf s.lineBuf = true
  inside : ∀ c ∈ s.lineBuf, c.1 < s.cfg.cap
  index : s.writeIndex < s.cfg.cap

/-- The PwmState invariants of 10_state.md R32. -/
structure PwmInv (s : State) : Prop where
  now_le : s.dutyNow.toNat ≤ 100
  target_le : s.dutyTarget.toNat ≤ 100
  freq_ge : 1000 ≤ s.freqHz.toNat
  freq_le : s.freqHz.toNat ≤ 50000
  off : s.enabled = false → s.outEn = false

/-- What holds after `Boot` and after every later event (10_state.md R45, R46, 40_line_framer.md R126),
and the one fact about the window before `Boot` that makes it so. -/
structure BackendInv (s : State) : Prop where
  pulse1 : s.booted = true → s.pulse1 = s.dutyNow.toNat * s.period / 100
  pulse2 : s.booted = true → s.pulse2 = s.pulse1
  pulse3 : s.booted = true → s.pulse3 = s.pulse1
  period : s.booted = true → s.period = s.cfg.clkHz / s.freqHz.toNat - 1
  enabled : s.booted = true → s.enabled = s.outEn
  armed : s.booted = true → s.rxArmed = true
  unbooted : s.booted = false → s.freqHz.toNat = 20000

/-! ## Views of a state -/

/-- The registers of PwmState (10_state.md section 3). -/
def pwmRegs (s : State) : BitVec 7 × BitVec 7 × Bool × BitVec 16 :=
  (s.dutyNow, s.dutyTarget, s.enabled, s.freqHz)

/-- LAST_STEP_TICK and TICK (10_state.md section 4). -/
def rampRegs (s : State) : BitVec 32 × BitVec 32 :=
  (s.lastStepTick, s.tick)

/-- The block's picture of the backend (10_state.md section 5). -/
def backendRegs (s : State) : Nat × Nat × Nat × Nat × Bool :=
  (s.period, s.pulse1, s.pulse2, s.pulse3, s.outEn)

/-- Every byte of LINE_BUF reads the same in both states. -/
def SameMemory (s t : State) : Prop :=
  ∀ a, t.lineByte a = s.lineByte a

/-- `t` with the two logs reduced to what they hold beyond those of `s`: what has been sent since `s`. -/
def sentSince (s t : State) : State :=
  { t with txLog := t.txLog.drop s.txLog.length, portLog := t.portLog.drop s.portLog.length }

/-- A function of the next state, where there is one. -/
def mapNext (f : State → State) (o : Host.Outcome State Fault Refusal) :
    Host.Outcome State Fault Refusal :=
  andThen o fun s => .next (f s)

/-! ## What the logs record -/

/-- A call of the PWM backend (00_scope.md R14). -/
def PortAction.isBackend : PortAction → Bool
  | .tx _ => false
  | .arm _ => false
  | .setPeriod _ => true
  | .setPulse _ _ _ => true
  | .enable => true
  | .disable => true

/-- One transmitted line (00_scope.md R12). -/
def PortAction.isTx : PortAction → Bool
  | .tx _ => true
  | .arm _ => false
  | .setPeriod _ => false
  | .setPulse _ _ _ => false
  | .enable => false
  | .disable => false

/-- The bytes an action transmits. -/
def PortAction.txBytes : PortAction → Text
  | .tx bytes => bytes
  | .arm _ => []
  | .setPeriod _ => []
  | .setPulse _ _ _ => []
  | .enable => []
  | .disable => []

/-! ## Runs and schedules -/

/-- So many steps, stopping at the first that does not complete: the host's `Core.run` of this machine. -/
def runFor : Nat → State → Host.Outcome State Fault Refusal
  | 0, s => .next s
  | n + 1, s => andThen (step s) (runFor n)

/-- Instructions one after another. -/
def execAll : List Instr → State → Host.Outcome State Fault Refusal
  | [], s => .next s
  | i :: is, s => andThen (exec i s) (execAll is)

/-- The events that happen in a run of so many steps, in their order: the enabled events of the schedule
and, with none left, the main loop's own (44_main_loop.md R207). -/
def executed : Nat → State → List Event
  | 0, _ => []
  | n + 1, s =>
    let e := s.events.headD (mainLoopEvent s)
    let later :=
      match step s with
      | .next t => executed n t
      | .fault _ => []
      | .refused _ => []
    if enabledEvent e s then e :: later else later

/-- The premise LOOP_FAST (44_main_loop.md R213): between any two `Tick` events, the consecutive ones
among them, there is a `Loop` event. The step does not assume it; a claim that needs it says so. -/
def LoopFast (es : List Event) : Prop :=
  ∀ before between after, es = before ++ .tick :: (between ++ .tick :: after) → .loop ∈ between

/-- The premise NO_OVERRUN (44_main_loop.md R213): no `Rx` event falls between one that sets LINE_READY,
a terminator's, and the next `Loop` event. The step does not assume it; a claim that needs it says so. -/
def NoOverrun (es : List Event) : Prop :=
  ∀ before e between b after, es = before ++ .rx e :: (between ++ .rx b :: after) →
    e = CR ∨ e = LF → .loop ∈ between

/-- The bytes of a text, one `Rx` event each. -/
def receiveAll (L : Text) : List Event :=
  L.map .rx

/-- Twenty milliseconds and then one poll. It is slower than LOOP_FAST allows, and still polls at every
cadence point. -/
def cadenceRound : List Event :=
  List.replicate 20 .tick ++ [.loop]

/-- `n` rounds of the cadence. -/
def cadenceRounds (n : Nat) : List Event :=
  (List.replicate n cadenceRound).flatten

end Sys2Proof.Machine
end

