-- ==== Sys2Proof/Certificates/Slice0/Obligations.lean ====
section
/-! DEFINITION. The statements for the provers. Byte strings are written out as the spec's tables give
them (30_encoding.md R93, R94, R106, R107). "Decision Dn" is the spec's own choice of
92_eei_decisions.md, not the source's; "log n" is notes/assumptions/n.md. -/

open Sys2Proof Sys2Proof.Machine

/-! ## Decoding and encoding -/

/-- R93, R94, R90: words written out from the encoding tables. -/
def Obligations.TableWordsDecodeToTheirRows : Prop :=
  decode (.line [0x73, 0x65, 0x74, 0x20, 0x38, 0x30]) = .ok (.set 80) ∧
  decode (.line [0x66, 0x72, 0x65, 0x71, 0x20, 0x39, 0x39, 0x39]) = .ok (.freq 999) ∧
  decode (.line [0x73, 0x74, 0x61, 0x72, 0x74]) = .ok .start ∧
  decode (.line [0x73, 0x74, 0x6F, 0x70]) = .ok .stop ∧
  decode (.line [0x73, 0x74, 0x61, 0x74, 0x75, 0x73]) = .ok .status ∧
  decode (.line [0x66, 0x6F, 0x6F]) = .ok .unknown ∧
  decode (.byte 0x0D) = .ok .rxCr ∧
  decode (.byte 0x0A) = .ok .rxLf ∧
  decode (.byte 0x41) = .ok (.rxData 0x41) ∧
  decodeTableWord 32 0x73657420 = some (.set 0) ∧
  decodeTableWord 48 0x737461727400 = some .start

/-- Every instruction that has a code is read back from it, whatever its operand; RAMP and INTERNAL rows
have none (R110, R111). UNKNOWN's code is the empty line, the model's choice among its lines (log 13). -/
def Obligations.DecodingAnEncodedInstructionGivesItBack : Prop :=
  ∀ i : Instr, i.wf = true →
    (∀ c, encode i = some c → decode c = .ok i) ∧
    (encode i = none ↔ i.format = .RAMP ∨ i.format = .INTERNAL)

/-- R95: each pattern selects its command, whatever follows a prefix, and a line that matches none of
the five is UNKNOWN. -/
def Obligations.DecodeTakesTheFirstMatchingPattern : Prop :=
  ∀ L : Text,
    (∀ T, L = [0x73, 0x65, 0x74, 0x20] ++ T → decodeLine L = .set (parseInt T)) ∧
    (∀ T, L = [0x66, 0x72, 0x65, 0x71, 0x20] ++ T → decodeLine L = .freq (parseInt T)) ∧
    (decodeLine L = .start ↔ L = [0x73, 0x74, 0x61, 0x72, 0x74]) ∧
    (decodeLine L = .stop ↔ L = [0x73, 0x74, 0x6F, 0x70]) ∧
    (decodeLine L = .status ↔ L = [0x73, 0x74, 0x61, 0x74, 0x75, 0x73]) ∧
    (decodeLine L = .unknown ↔
      (¬ ∃ T, L = [0x73, 0x65, 0x74, 0x20] ++ T) ∧ (¬ ∃ T, L = [0x66, 0x72, 0x65, 0x71, 0x20] ++ T) ∧
      L ≠ [0x73, 0x74, 0x61, 0x72, 0x74] ∧ L ≠ [0x73, 0x74, 0x6F, 0x70] ∧
      L ≠ [0x73, 0x74, 0x61, 0x74, 0x75, 0x73])

/-- R98, P1 and P2: the two properties of the parser the source forces. The value of the digits is
`foldl` of `10 * v + digit`. -/
def Obligations.ParseIntHasTheTwoForcedProperties : Prop :=
  (∀ D : Text, D ≠ [] → (∀ b ∈ D, 0x30 ≤ b.toNat ∧ b.toNat ≤ 0x39) →
    parseInt D = (D.foldl (fun v b => 10 * v + (b.toNat - 0x30)) 0 : Nat) ∧
    parseInt (0x2D :: D) = -((D.foldl (fun v b => 10 * v + (b.toNat - 0x30)) 0 : Nat) : Int)) ∧
  parseInt [] = 0 ∧
  (∀ (b : Byte) (T : Text), ¬ (0x30 ≤ b.toNat ∧ b.toNat ≤ 0x39) → b ≠ 0x2D → b ≠ 0x2B →
    b ≠ 0x20 → b ≠ 0x09 → b ≠ 0x0B → b ≠ 0x0C → parseInt (b :: T) = 0)

/-- Decision D7 (log 10), all of R97 that P1 and P2 leave open: blanks before the operand are skipped,
`'+'` is accepted, what follows the digits is ignored, and a sign without a digit after it gives 0. -/
def Obligations.ParseIntSkipsBlanksAndIgnoresTheRest : Prop :=
  (∀ (b : Byte) (T : Text), b = 0x20 ∨ b = 0x09 ∨ b = 0x0B ∨ b = 0x0C → parseInt (b :: T) = parseInt T) ∧
  (∀ (D : Text) (b : Byte) (T : Text), D ≠ [] → (∀ d ∈ D, 0x30 ≤ d.toNat ∧ d.toNat ≤ 0x39) →
    ¬ (0x30 ≤ b.toNat ∧ b.toNat ≤ 0x39) →
    parseInt (D ++ b :: T) = parseInt D ∧ parseInt (0x2D :: (D ++ b :: T)) = parseInt (0x2D :: D) ∧
    parseInt (0x2B :: (D ++ b :: T)) = parseInt D) ∧
  (∀ D : Text, D ≠ [] → (∀ d ∈ D, 0x30 ≤ d.toNat ∧ d.toNat ≤ 0x39) → parseInt (0x2B :: D) = parseInt D) ∧
  (∀ sign : Byte, sign = 0x2D ∨ sign = 0x2B →
    parseInt [sign] = 0 ∧
    ∀ (b : Byte) (T : Text), ¬ (0x30 ≤ b.toNat ∧ b.toNat ≤ 0x39) → parseInt (sign :: b :: T) = 0)

/-- Decision D18: `dec(n)` is digits only, at least one, without a leading zero, and denotes `n`. -/
def Obligations.DecIsTheMinimalDecimalSpelling : Prop :=
  ∀ n : Nat,
    dec n ≠ [] ∧ (∀ b ∈ dec n, 0x30 ≤ b.toNat ∧ b.toNat ≤ 0x39) ∧ parseInt (dec n) = n ∧
    (n ≠ 0 → (dec n).head? ≠ some 0x30) ∧ (n = 0 → dec n = [0x30])

/-! ## Steps run decoded instructions -/

/-- A step whose next event is a byte runs the instruction the byte decodes to; a `Loop` step whose
ready line decodes to an instruction takes the line, runs the instruction, then checks the ramp
(decision D6). -/
def Obligations.StepRunsTheDecodedInstruction : Prop :=
  (∀ (s : State) (b : Byte) (rest : List Event), s.booted = true → s.rxArmed = true →
    s.events = .rx b :: rest → step s = exec (decodeByte b) { s with events := rest }) ∧
  (∀ (s : State) (L : Text) (rest : List Event), s.booted = true → s.events = .loop :: rest →
    s.lineReady = true → lineText s = some L →
    exec .take { s with events := rest } = .next { s with events := rest, lineReady := false } ∧
    step s = andThen (exec (decodeLine L) { s with events := rest, lineReady := false }) rampCheck)

/-- Decisions D4, D5 and D6 (log 18): a `Loop` without a ready line changes nothing before 20 ms (modulo 2^32) have
passed since the last firing; then it fires, samples the tick, and the comparison selects the row. -/
def Obligations.IdleLoopFiresTheRampAtTheCadence : Prop :=
  ∀ (s : State) (rest : List Event), s.booted = true → s.events = .loop :: rest → s.lineReady = false →
    ((s.tick.toNat + 2 ^ 32 - s.lastStepTick.toNat) % 2 ^ 32 < 20 →
      step s = .next { s with events := rest }) ∧
    (20 ≤ (s.tick.toNat + 2 ^ 32 - s.lastStepTick.toNat) % 2 ^ 32 →
      step s = exec
        (if s.dutyNow.toNat < s.dutyTarget.toNat then .rampUp
         else if s.dutyNow.toNat = s.dutyTarget.toNat then .rampHold else .rampDown)
        { s with events := rest } ∧
      ∃ t, step s = .next t ∧ t.lastStepTick = s.tick)

/-- Log 2 and log 3, the model's choices: with nothing scheduled the main loop acts, `Boot` once and then
`Loop`; a scheduled event that R207 does not enable leaves no trace. -/
def Obligations.DisabledEventsLeaveNoTrace : Prop :=
  (∀ (s : State) (e : Event) (rest : List Event), s.events = e :: rest →
    ((s.booted = false ∧ e ≠ .reset ∧ e ≠ .boot) ∨ (s.booted = true ∧ e = .boot) ∨
      (s.rxArmed = false ∧ ∃ b, e = .rx b)) →
    step s = .next { s with events := rest }) ∧
  (∀ s : State, s.events = [] →
    step s = step { s with events := [if s.booted then .loop else .boot] })

/-- Decisions D4 and D23: a `Tick` adds one modulo 2^32 and touches nothing else. -/
def Obligations.TickAdvancesByOneAndTouchesNothingElse : Prop :=
  ∀ (s : State) (rest : List Event), s.booted = true → s.events = .tick :: rest →
    ∃ k : BitVec 32, k.toNat = (s.tick.toNat + 1) % 2 ^ 32 ∧
      step s = .next { s with events := rest, tick := k }

/-! ## Reset and boot -/

/-- Decisions D4 and D10: what `Reset` leaves, and that only `Boot` and `Reset` are enabled next. LINE_BUF,
PERIOD and PULSE1..3 are not spoken of (log 4, log 5). OUT_EN's value is the one R38 marks [derived]. -/
def Obligations.ResetRestoresTheDefaults : Prop :=
  ∀ (s : State) (rest : List Event), s.events = .reset :: rest →
    ∃ t, step s = .next t ∧ t.writeIndex = 0 ∧ t.lineReady = false ∧ t.rxArmed = false ∧
      t.dutyNow.toNat = 50 ∧ t.dutyTarget.toNat = 50 ∧ t.enabled = false ∧ t.freqHz.toNat = 20000 ∧
      t.lastStepTick.toNat = 0 ∧ t.tick.toNat = 0 ∧ t.outEn = false ∧ t.txLog = [] ∧ t.booted = false ∧
      ∀ e, enabledEvent e t = true ↔ e = .reset ∨ e = .boot

/-- R256, R43: what a reset leaves depends on no register, flag, log or byte of memory before it. `draw`
only names the unspecified buffer content (log 4). That PERIOD and PULSE1..3, which the spec leaves
unspecified after a reset (R42), come out equal too rests on the model's choice of log 5, whichever value
that choice names. -/
def Obligations.NothingPersistsAcrossReset : Prop :=
  ∀ (s t : State) (rest : List Event), s.events = .reset :: rest → t.events = .reset :: rest →
    s.cfg = t.cfg → s.draw = t.draw → step s = step t

/-- Decision D10: `Boot`'s effects and the order of its actions, from any state in which it is enabled. -/
def Obligations.BootProgramsTheDefaultsAndArms : Prop :=
  ∀ (s : State) (rest : List Event) (p q : Nat), s.booted = false → s.events = .boot :: rest →
    p = s.cfg.clkHz / 20000 - 1 → q = 50 * p / 100 →
    step s = .next { s with
      events := rest, period := p, pulse1 := q, pulse2 := q, pulse3 := q, dutyNow := 50, outEn := true,
      enabled := true, rxArmed := true, booted := true,
      txLog := s.txLog ++
        ((if s.cfg.nestedReplies
          then [0x50, 0x57, 0x4D, 0x20, 0x53, 0x54, 0x41, 0x52, 0x54] ++ s.cfg.txEol else []) ++
         ([0x3D, 0x3D, 0x3D, 0x20, 0x50, 0x57, 0x4D, 0x20, 0x43, 0x4F, 0x4E, 0x54, 0x52, 0x4F, 0x4C, 0x4C,
           0x45, 0x52, 0x20, 0x52, 0x45, 0x41, 0x44, 0x59, 0x20, 0x3D, 0x3D, 0x3D] ++ s.cfg.txEol)),
      portLog := s.portLog ++
        ([.setPeriod p, .setPulse q q q, .enable] ++
         (if s.cfg.nestedReplies
          then [.tx ([0x50, 0x57, 0x4D, 0x20, 0x53, 0x54, 0x41, 0x52, 0x54] ++ s.cfg.txEol)] else []) ++
         [.tx ([0x3D, 0x3D, 0x3D, 0x20, 0x50, 0x57, 0x4D, 0x20, 0x43, 0x4F, 0x4E, 0x54, 0x52, 0x4F, 0x4C,
           0x4C, 0x45, 0x52, 0x20, 0x52, 0x45, 0x41, 0x44, 0x59, 0x20, 0x3D, 0x3D, 0x3D] ++ s.cfg.txEol),
          .arm 0]) }

/-- R252: the banner is transmitted exactly once per reset, by `Boot` and nothing else, and it is the
first text, but for PWM START when nested replies are announced. -/
def Obligations.BannerIsSentOncePerReset : Prop :=
  (∀ s t : State,
    s.portLog.count (.tx (replyBanner ++ s.cfg.txEol)) = (if s.booted then 1 else 0) →
    step s = .next t →
    t.portLog.count (.tx (replyBanner ++ t.cfg.txEol)) = (if t.booted then 1 else 0)) ∧
  (∀ (s t : State), s.booted = false → s.txLog = [] → s.events.head? = some .boot → step s = .next t →
    t.txLog = (if s.cfg.nestedReplies
        then [0x50, 0x57, 0x4D, 0x20, 0x53, 0x54, 0x41, 0x52, 0x54] ++ s.cfg.txEol else []) ++
      ([0x3D, 0x3D, 0x3D, 0x20, 0x50, 0x57, 0x4D, 0x20, 0x43, 0x4F, 0x4E, 0x54, 0x52, 0x4F, 0x4C, 0x4C,
        0x45, 0x52, 0x20, 0x52, 0x45, 0x41, 0x44, 0x59, 0x20, 0x3D, 0x3D, 0x3D] ++ s.cfg.txEol))

/-- R253: outputs are on after `Boot`, and a STATUS sent then replies `State: ON`; after `Reset` ENABLED is 0.
That OUT_EN is 0 there too is the reset value R38 marks [derived] (listed in R42 and R250). -/
def Obligations.StatusAfterBootReportsOn : Prop :=
  (∀ (s t : State) (rest : List Event), s.events = .reset :: rest → step s = .next t →
    t.enabled = false ∧ t.outEn = false) ∧
  (∀ (s : State) (rest : List Event), s.booted = false → s.events = .boot :: rest →
    ∃ t u, step s = .next t ∧ t.enabled = true ∧ t.outEn = true ∧ exec .status t = .next u ∧
      u.portLog.getLast? =
        some (.tx ([0x53, 0x74, 0x61, 0x74, 0x65, 0x3A, 0x20, 0x4F, 0x4E] ++ s.cfg.txEol)))

/-! ## The framer -/

/-- Decisions D12 (the sentinel is 0x00): a terminator byte stores the sentinel at the write index over
itself, raises the flag whatever it was, resets the index, re-arms there, and touches nothing else. -/
def Obligations.TerminatorEndsTheLine : Prop :=
  ∀ (i : Instr) (s : State), i = .rxCr ∨ i = .rxLf → s.writeIndex < s.cfg.cap →
    ∃ t, exec i s = .next t ∧ t.lineByte s.writeIndex = 0x00 ∧
      (∀ a, a ≠ s.writeIndex → t.lineByte a = s.lineByte a) ∧
      t = { s with lineBuf := t.lineBuf, lineReady := true, writeIndex := 0, rxArmed := true,
                   portLog := s.portLog ++ [.arm 0] }

/-- R124, R125: any other byte, 0x00 and the bytes above 0x7F included, is stored as it is at the write
index, which advances and wraps silently at C; nothing else changes but the re-arm. -/
def Obligations.DataByteIsStoredAndTheIndexWraps : Prop :=
  ∀ (b : Byte) (s : State), b ≠ 0x0D → b ≠ 0x0A → s.writeIndex < s.cfg.cap →
    decodeByte b = .rxData b ∧
    ∃ t, exec (.rxData b) s = .next t ∧ t.lineByte s.writeIndex = b ∧
      (∀ a, a ≠ s.writeIndex → t.lineByte a = s.lineByte a) ∧
      (s.writeIndex + 1 = s.cfg.cap → t.writeIndex = 0) ∧
      (s.writeIndex + 1 ≠ s.cfg.cap → t.writeIndex = s.writeIndex + 1) ∧
      t = { s with lineBuf := t.lineBuf, writeIndex := t.writeIndex, rxArmed := true,
                   portLog := s.portLog ++ [.arm t.writeIndex] }

/-- Log 7, the model's choice: a byte operation whose index is at or above C stops, and only such a one
does. -/
def Obligations.ByteOperationStopsOnlyOutsideTheBuffer : Prop :=
  ∀ (i : Instr) (s : State), i.format = .BYTE →
    ((¬ s.writeIndex < s.cfg.cap → exec i s = .fault .lineAddress) ∧
     (s.writeIndex < s.cfg.cap → ∃ t, exec i s = .next t))

/-- R126: REARM arms one receive at WRITE_INDEX; every byte, whatever its class, ends with exactly one
arming, at the index its operation left. That the first arming is `Boot`'s last action, at 0, is decision
D10 (log 18); that after `Boot` a receive is armed between any two events is the sentence of R126 marked
[derived]. -/
def Obligations.EveryByteRearmsExactlyOnce : Prop :=
  (∀ s : State, exec .rearm s =
    .next { s with rxArmed := true, portLog := s.portLog ++ [.arm s.writeIndex] }) ∧
  (∀ (b : Byte) (s t : State), exec (decodeByte b) s = .next t →
    t.rxArmed = true ∧ t.portLog = s.portLog ++ [.arm t.writeIndex]) ∧
  (∀ (s t : State) (rest : List Event), s.booted = false → s.events = .boot :: rest →
    step s = .next t → t.rxArmed = true ∧ t.portLog.getLast? = some (.arm 0)) ∧
  (∀ s t : State, (s.booted = true → s.rxArmed = true) → step s = .next t → t.booted = true →
    t.rxArmed = true)

/-- Decision D24: TAKE without a ready line changes nothing; with one it clears the flag, nothing else,
when the buffer holds a sentinel; otherwise it faults (decision D29). -/
def Obligations.TakeClearsTheFlagOrFaults : Prop :=
  ∀ s : State,
    (s.lineReady = false → exec .take s = .next s) ∧
    (s.lineReady = true → (∃ k, k < s.cfg.cap ∧ s.lineByte k = 0x00) →
      exec .take s = .next { s with lineReady := false }) ∧
    (s.lineReady = true → (∀ k, k < s.cfg.cap → s.lineByte k ≠ 0x00) →
      exec .take s = .fault .lineUnterminated)

/-- Decision D12: the line text is exactly the bytes below the first 0x00, and there is none just when the
buffer holds no 0x00. -/
def Obligations.LineTextIsTheBytesBelowTheFirstSentinel : Prop :=
  ∀ s : State,
    (∀ L : Text, lineText s = some L ↔
      L.length < s.cfg.cap ∧ s.lineByte L.length = 0x00 ∧
      ∀ k (h : k < L.length), s.lineByte k = L[k] ∧ L[k] ≠ 0x00) ∧
    (lineText s = none ↔ ∀ k, k < s.cfg.cap → s.lineByte k ≠ 0x00)

/-- R129: over all instructions, only a terminator sets LINE_READY and only TAKE clears it; a byte
operation does not read it. -/
def Obligations.OnlyTakeClearsTheReadyFlag : Prop :=
  (∀ (i : Instr) (s t : State), exec i s = .next t →
    (s.lineReady = false → t.lineReady = true → i = .rxCr ∨ i = .rxLf) ∧
    (s.lineReady = true → t.lineReady = false → i = .take)) ∧
  (∀ (i : Instr) (s : State) (r : Bool), i.format = .BYTE →
    mapNext (fun t => { t with lineReady := false }) (exec i { s with lineReady := r }) =
      mapNext (fun t => { t with lineReady := false }) (exec i s))

/-- R70: `Rx` writes only at the write index, advances or resets it, and never clears or reads the flag;
`Loop` never writes LINE_BUF or WRITE_INDEX, clears the flag, and without a ready line does not read
the buffer. -/
def Obligations.HandOffProtocolIsKept : Prop :=
  (∀ (b : Byte) (s t : State), rxEvent b s = .next t →
    (∀ a, a ≠ s.writeIndex → t.lineByte a = s.lineByte a) ∧
    (t.writeIndex = 0 ∨ t.writeIndex = s.writeIndex + 1) ∧
    (t.lineReady = true ∨ t.lineReady = s.lineReady)) ∧
  (∀ (b : Byte) (s : State) (r : Bool),
    mapNext (fun t => { t with lineReady := false }) (rxEvent b { s with lineReady := r }) =
      mapNext (fun t => { t with lineReady := false }) (rxEvent b s)) ∧
  (∀ s t : State, loopEvent s = .next t →
    SameMemory s t ∧ t.lineBuf = s.lineBuf ∧ t.writeIndex = s.writeIndex ∧ t.lineReady = false) ∧
  (∀ (s : State) (m : Memory) (w : Nat), s.lineReady = false →
    loopEvent { s with lineBuf := m, writeIndex := w } =
      mapNext (fun t => { t with lineBuf := m, writeIndex := w }) (loopEvent s))

/-- The framer on a whole line (decision D12; 40_line_framer.md section 5): however long the line of data
bytes, none of them 0x00, after its terminator the line text is the bytes stored since the last wrap,
and nothing but the receiver has moved. -/
def Obligations.LineOfDataBytesIsFramedToItsTail : Prop :=
  ∀ (s : State) (D : Text) (e : Byte) (rest : List Event), s.booted = true → s.rxArmed = true →
    s.writeIndex = 0 → (∀ b ∈ D, b ≠ 0x00 ∧ b ≠ 0x0D ∧ b ≠ 0x0A) → e = 0x0D ∨ e = 0x0A →
    s.events = receiveAll D ++ .rx e :: rest →
    ∃ t, runFor (D.length + 1) s = .next t ∧ t.events = rest ∧ t.lineReady = true ∧
      t.writeIndex = 0 ∧ t.rxArmed = true ∧ t.booted = true ∧
      lineText t = some (D.drop (D.length / s.cfg.cap * s.cfg.cap)) ∧
      pwmRegs t = pwmRegs s ∧ backendRegs t = backendRegs s ∧ rampRegs t = rampRegs s ∧
      t.txLog = s.txLog ∧ t.cfg = s.cfg

/-- A command sent on the wire is executed (NO_OVERRUN by the schedule): the bytes of its line, one
terminator, one `Loop`; up to the `Loop` nothing but the receiver has moved; the `Loop` takes exactly
that line, runs exactly that command, then checks the ramp (decision D6). -/
def Obligations.SentCommandIsExecuted : Prop :=
  ∀ (s : State) (i : Instr) (L : Text) (e : Byte) (rest : List Event), s.booted = true →
    s.rxArmed = true → s.writeIndex = 0 → i.isCommand = true → encode i = some (.line L) →
    L.length < s.cfg.cap → e = 0x0D ∨ e = 0x0A →
    s.events = receiveAll L ++ .rx e :: .loop :: rest →
    ∃ t, runFor (L.length + 1) s = .next t ∧ t.events = .loop :: rest ∧
      t = { s with lineBuf := t.lineBuf, writeIndex := t.writeIndex, lineReady := t.lineReady,
                   rxArmed := t.rxArmed, portLog := t.portLog, events := t.events } ∧
      step t = andThen (exec i { t with events := rest, lineReady := false }) rampCheck

/-- The overwrite hazard, first case of 70_reset_and_hazards.md section 3: data bytes that arrive before
the take and do not reach the sentinel leave a text of the new bytes and the old tail. -/
def Obligations.UntakenLineIsOverwrittenFromItsStart : Prop :=
  ∀ (s : State) (old new : Text) (rest : List Event), s.booted = true → s.rxArmed = true →
    s.writeIndex = 0 → lineText s = some old → new.length ≤ old.length →
    (∀ b ∈ new, b ≠ 0x00 ∧ b ≠ 0x0D ∧ b ≠ 0x0A) → s.events = receiveAll new ++ rest →
    ∃ t, runFor new.length s = .next t ∧ t.events = rest ∧
      lineText t = some (new ++ old.drop new.length) ∧ t.lineReady = s.lineReady ∧
      t.writeIndex = new.length

/-- The double terminator of 70_reset_and_hazards.md section 3: without a `Loop` between CR and LF the
command is lost and the one reply is CMD ERR. The spec's own choices in it (log 18): decision D12, a
sentinel at index 0 makes the line text empty; D19, the empty line is dispatched; D6, the `Loop` runs the
command, here the reply, before its ramp check. -/
def Obligations.CrLfWithoutAPollDestroysTheCommand : Prop :=
  ∀ (s : State) (rest : List Event), s.booted = true → s.rxArmed = true →
    s.writeIndex < s.cfg.cap → s.events = .rx 0x0D :: .rx 0x0A :: .loop :: rest →
    ∃ t, runFor 2 s = .next t ∧ t.lineReady = true ∧ lineText t = some [] ∧
      t.txLog = s.txLog ∧
      step t = rampCheck { t with
        events := rest, lineReady := false,
        txLog := t.txLog ++ ([0x43, 0x4D, 0x44, 0x20, 0x45, 0x52, 0x52] ++ s.cfg.txEol),
        portLog := t.portLog ++ [.tx ([0x43, 0x4D, 0x44, 0x20, 0x45, 0x52, 0x52] ++ s.cfg.txEol)] }

/-- 10_state.md section 2, 20_memory.md section 7: a line taken with no `Rx` after its terminator never
faults, whatever the buffer held before; so under NO_OVERRUN no run faults (44_main_loop.md section 5). -/
def Obligations.TerminatedLineIsTakenWithoutFault : Prop :=
  (∀ (s : State) (e : Byte) (rest : List Event), s.booted = true → s.rxArmed = true →
    s.writeIndex < s.cfg.cap → e = 0x0D ∨ e = 0x0A → s.events = .rx e :: .loop :: rest →
    ∃ t u, step s = .next t ∧ step t = .next u ∧ u.events = rest ∧ u.lineReady = false ∧
      ∃ L, lineText t = some L ∧ L.length ≤ s.writeIndex ∧ ∀ b ∈ L, b ≠ 0x00) ∧
  (∀ (s : State) (n : Nat), FramerInv s → s.lineReady = false → NoOverrun (executed n s) →
    ∃ t, runFor n s = .next t)

/-! ## Commands -/

/-- R99, R223: SET's operand is the integer its text denotes; it stores the clamped operand, whatever the
operand, and writes nothing else; that it replies the clamped one is decision D26 (log 18). -/
def Obligations.SetStoresAndRepliesTheClampedTarget : Prop :=
  ∀ (T : Text) (v : Int) (d : Nat) (s : State), (d : Int) = max 0 (min 100 v) →
    decodeLine ([0x73, 0x65, 0x74, 0x20] ++ T) = .set (parseInt T) ∧
    ∃ t, exec (.set v) s = .next t ∧ t.dutyTarget.toNat = d ∧ SameMemory s t ∧
      t = { s with dutyTarget := t.dutyTarget,
                   txLog := s.txLog ++ ([0x54, 0x41, 0x52, 0x47, 0x45, 0x54, 0x20] ++ dec d ++ [0x25]
                     ++ s.cfg.txEol),
                   portLog := s.portLog ++ [.tx ([0x54, 0x41, 0x52, 0x47, 0x45, 0x54, 0x20] ++ dec d
                     ++ [0x25] ++ s.cfg.txEol)] }

/-- R100: the operand text's integer reaches set_frequency unclamped: in range it is the new frequency,
otherwise (a parse failure, which gives 0, included) nothing but the reply FREQ ERR results. -/
def Obligations.FreqOperandIsPassedUnclamped : Prop :=
  ∀ (T : Text) (s : State),
    ∃ t, exec (decodeLine ([0x66, 0x72, 0x65, 0x71, 0x20] ++ T)) s = .next t ∧
      (1000 ≤ parseInt T → parseInt T ≤ 50000 → (t.freqHz.toNat : Int) = parseInt T) ∧
      (parseInt T < 1000 ∨ 50000 < parseInt T →
        t = { s with txLog := s.txLog ++ ([0x46, 0x52, 0x45, 0x51, 0x20, 0x45, 0x52, 0x52] ++ s.cfg.txEol),
                     portLog := s.portLog ++
                       [.tx ([0x46, 0x52, 0x45, 0x51, 0x20, 0x45, 0x52, 0x52] ++ s.cfg.txEol)] })

/-- Decisions D9 and D15 (where FREQ_HZ is stored and the reply sent): an accepted frequency, by FREQ and
by the facade's row, its port actions in order. -/
def Obligations.AcceptedFrequencyReprogramsAndRestarts : Prop :=
  ∀ (i : Instr) (f : Int) (n p q : Nat) (s : State), i = .freq f ∨ i = .setFrequencyAccept f →
    f = n → 1000 ≤ n → n ≤ 50000 → s.dutyNow.toNat ≤ 100 → p = s.cfg.clkHz / n - 1 →
    q = s.dutyNow.toNat * p / 100 →
    exec i s = .next { s with
      freqHz := BitVec.ofNat 16 n, period := p, pulse1 := q, pulse2 := q, pulse3 := q, outEn := true,
      enabled := true,
      txLog := s.txLog ++
        ((if s.cfg.nestedReplies
          then ([0x50, 0x57, 0x4D, 0x20, 0x53, 0x54, 0x4F, 0x50] ++ s.cfg.txEol) ++
               ([0x50, 0x57, 0x4D, 0x20, 0x53, 0x54, 0x41, 0x52, 0x54] ++ s.cfg.txEol) else []) ++
         ([0x46, 0x52, 0x45, 0x51, 0x20] ++ dec n ++ [0x20, 0x48, 0x7A] ++ s.cfg.txEol)),
      portLog := s.portLog ++
        ([.disable] ++
         (if s.cfg.nestedReplies
          then [.tx ([0x50, 0x57, 0x4D, 0x20, 0x53, 0x54, 0x4F, 0x50] ++ s.cfg.txEol)] else []) ++
         [.setPeriod p, .setPulse q q q, .enable] ++
         (if s.cfg.nestedReplies
          then [.tx ([0x50, 0x57, 0x4D, 0x20, 0x53, 0x54, 0x41, 0x52, 0x54] ++ s.cfg.txEol)] else []) ++
         [.tx ([0x46, 0x52, 0x45, 0x51, 0x20] ++ dec n ++ [0x20, 0x48, 0x7A] ++ s.cfg.txEol)]) }

/-- R175, R222: a rejected frequency, by FREQ and by the facade's row, adds the reply FREQ ERR and leaves
all else, the outputs included; no backend call is made. -/
def Obligations.RejectedFrequencyChangesNothing : Prop :=
  ∀ (i : Instr) (f : Int) (s : State), i = .freq f ∨ i = .setFrequencyReject f →
    f < 1000 ∨ 50000 < f →
    exec i s = .next { s with
      txLog := s.txLog ++ ([0x46, 0x52, 0x45, 0x51, 0x20, 0x45, 0x52, 0x52] ++ s.cfg.txEol),
      portLog := s.portLog ++
        [.tx ([0x46, 0x52, 0x45, 0x51, 0x20, 0x45, 0x52, 0x52] ++ s.cfg.txEol)] }

/-- R265: the backend calls of FREQ, in order: disable, period, pulses, enable for every accepted
frequency, the present one included; none for a rejected one. -/
def Obligations.FrequencyChangeKeepsTheSafeOrder : Prop :=
  ∀ (f : Int) (s t : State), exec (.freq f) s = .next t →
    ∃ calls, t.portLog.filter PortAction.isBackend = s.portLog.filter PortAction.isBackend ++ calls ∧
      (1000 ≤ f → f ≤ 50000 → ∃ p q, calls = [.disable, .setPeriod p, .setPulse q q q, .enable]) ∧
      (f < 1000 ∨ 50000 < f → calls = [])

/-- R176, R264: an accepted set_frequency ends with outputs enabled whatever they were, after a STOP too;
STOP again turns them off. -/
def Obligations.AcceptedFrequencyRestartsAStoppedGenerator : Prop :=
  ∀ (i : Instr) (f : Int) (s : State), i = .freq f ∨ i = .setFrequencyAccept f → 1000 ≤ f → f ≤ 50000 →
    (∃ t, exec i s = .next t ∧ t.enabled = true ∧ t.outEn = true) ∧
    ∃ u v w, exec .stop s = .next u ∧ u.enabled = false ∧ u.outEn = false ∧
      exec i u = .next v ∧ v.enabled = true ∧ v.outEn = true ∧
      exec .stop v = .next w ∧ w.enabled = false ∧ w.outEn = false

/-- R170, R144: start enables the outputs, issues the enable again when they are on, announces if told
to, and writes nothing else; START is start with the announcement, so it replies exactly one PWM START. -/
def Obligations.StartEnablesTheOutputs : Prop :=
  ∀ (i : Instr) (announce : Bool) (s : State),
    i = .facadeStart announce ∨ (i = .start ∧ announce = true) →
    exec i s = .next { s with
      outEn := true, enabled := true,
      txLog := s.txLog ++ (if announce
        then [0x50, 0x57, 0x4D, 0x20, 0x53, 0x54, 0x41, 0x52, 0x54] ++ s.cfg.txEol else []),
      portLog := s.portLog ++ .enable :: (if announce
        then [.tx ([0x50, 0x57, 0x4D, 0x20, 0x53, 0x54, 0x41, 0x52, 0x54] ++ s.cfg.txEol)] else []) }

/-- R171, R145: stop disables the outputs, announces if told to, and writes nothing else; STOP is stop
with the announcement; the ramp goes on after it as it would have. -/
def Obligations.StopDisablesTheOutputsAndTheRampGoesOn : Prop :=
  ∀ (i : Instr) (announce : Bool) (s : State),
    i = .facadeStop announce ∨ (i = .stop ∧ announce = true) →
    ∃ t, exec i s = .next t ∧
      t = { s with
        outEn := false, enabled := false,
        txLog := s.txLog ++ (if announce
          then [0x50, 0x57, 0x4D, 0x20, 0x53, 0x54, 0x4F, 0x50] ++ s.cfg.txEol else []),
        portLog := s.portLog ++ .disable :: (if announce
          then [.tx ([0x50, 0x57, 0x4D, 0x20, 0x53, 0x54, 0x4F, 0x50] ++ s.cfg.txEol)] else []) } ∧
      ∃ u v, rampCheck s = .next u ∧ rampCheck t = .next v ∧ v.dutyNow = u.dutyNow ∧
        v.pulse1 = u.pulse1 ∧ v.pulse2 = u.pulse2 ∧ v.pulse3 = u.pulse3 ∧
        v.lastStepTick = u.lastStepTick ∧ v.enabled = false ∧ v.outEn = false

/-- R146: STATUS replies its three lines from the state at one instant and writes the logs only. -/
def Obligations.StatusReportsThreeLines : Prop :=
  ∀ (s : State) (l1 l2 l3 : Text),
    l1 = [0x44, 0x75, 0x74, 0x79, 0x3A, 0x20] ++ dec s.dutyNow.toNat ++ [0x25, 0x20, 0x2D, 0x3E, 0x20]
      ++ dec s.dutyTarget.toNat ++ [0x25] ++ s.cfg.txEol →
    l2 = [0x46, 0x72, 0x65, 0x71, 0x3A, 0x20] ++ dec s.freqHz.toNat ++ [0x20, 0x48, 0x7A]
      ++ s.cfg.txEol →
    l3 = (if s.enabled then [0x53, 0x74, 0x61, 0x74, 0x65, 0x3A, 0x20, 0x4F, 0x4E]
      else [0x53, 0x74, 0x61, 0x74, 0x65, 0x3A, 0x20, 0x4F, 0x46, 0x46]) ++ s.cfg.txEol →
    exec .status s = .next { s with txLog := s.txLog ++ l1 ++ l2 ++ l3,
                                    portLog := s.portLog ++ [.tx l1, .tx l2, .tx l3] }

/-- R147, R221: UNKNOWN raises CmdError: the reply CMD ERR and no other change; the empty line is such a
line (decision D19); the `Loop` that dispatches it discards the line and goes on to the ramp (the order
is decision D6; log 18). -/
def Obligations.UnknownLineIsAnsweredAndDiscarded : Prop :=
  decodeLine [] = .unknown ∧
  (∀ s : State, exec .unknown s = .next { s with
    txLog := s.txLog ++ ([0x43, 0x4D, 0x44, 0x20, 0x45, 0x52, 0x52] ++ s.cfg.txEol),
    portLog := s.portLog ++ [.tx ([0x43, 0x4D, 0x44, 0x20, 0x45, 0x52, 0x52] ++ s.cfg.txEol)] }) ∧
  (∀ (s : State) (L : Text) (rest : List Event), s.booted = true → s.events = .loop :: rest →
    s.lineReady = true → lineText s = some L → decodeLine L = .unknown →
    step s = rampCheck { s with
      events := rest, lineReady := false,
      txLog := s.txLog ++ ([0x43, 0x4D, 0x44, 0x20, 0x45, 0x52, 0x52] ++ s.cfg.txEol),
      portLog := s.portLog ++ [.tx ([0x43, 0x4D, 0x44, 0x20, 0x45, 0x52, 0x52] ++ s.cfg.txEol)] })

/-- R225: neither error is fatal, and after it any instructions do and reply what they would have done and
replied without it: the outcomes agree in every field, the logs from there on included. -/
def Obligations.ErrorsDoNotAffectLaterInstructions : Prop :=
  ∀ (i : Instr) (s : State),
    (i = .unknown ∨ ∃ f, (f < 1000 ∨ 50000 < f) ∧ (i = .freq f ∨ i = .setFrequencyReject f)) →
    ∃ t, exec i s = .next t ∧
      ∀ js : List Instr, mapNext (sentSince t) (execAll js t) = mapNext (sentSince s) (execAll js s)

/-- 41_command_dispatch.md section 3: every command completes and its replies are whole lines, contiguous
in both logs: three for STATUS, three for an accepted FREQ when nested replies are announced (decision
D9), else one. -/
def Obligations.EveryCommandRepliesItsNumberOfLines : Prop :=
  ∀ (i : Instr) (s : State), i.isCommand = true →
    ∃ t acts, exec i s = .next t ∧ t.portLog = s.portLog ++ acts ∧
      t.txLog = s.txLog ++ (acts.map PortAction.txBytes).flatten ∧
      (i = .status → acts.countP PortAction.isTx = 3) ∧
      (∀ f, i = .freq f → 1000 ≤ f → f ≤ 50000 →
        acts.countP PortAction.isTx = if s.cfg.nestedReplies then 3 else 1) ∧
      (i ≠ .status → (∀ f, i = .freq f → f < 1000 ∨ 50000 < f) → acts.countP PortAction.isTx = 1)

/-! ## The facade and its arithmetic -/

/-- R172: set_duty clamps, computes the truncated pulse exactly, writes it to all three channels and
updates DUTY_NOW; it reads and writes no flag and emits nothing. -/
def Obligations.SetDutyWritesOnePulseToAllChannels : Prop :=
  ∀ (duty : Int) (d q : Nat) (s : State), (d : Int) = max 0 (min 100 duty) →
    q = d * s.period / 100 →
    (∃ t, exec (.setDuty duty) s = .next t ∧ t.dutyNow.toNat = d ∧
      t = { s with dutyNow := t.dutyNow, pulse1 := q, pulse2 := q, pulse3 := q,
                   portLog := s.portLog ++ [.setPulse q q q] }) ∧
    (duty = 0 → q = 0) ∧ (duty = 100 → q = s.period)

/-- R173: set_target writes DUTY_TARGET and nothing else, and no other instruction but SET changes it. -/
def Obligations.OnlySetChangesTheTarget : Prop :=
  (∀ (d : Fin 101) (s : State), ∃ t, exec (.setTarget d) s = .next t ∧ t.dutyTarget.toNat = d.val ∧
    t = { s with dutyTarget := t.dutyTarget }) ∧
  (∀ (i : Instr) (s t : State), exec i s = .next t → t.dutyTarget ≠ s.dutyTarget →
    (∃ v, i = .set v) ∨ ∃ d, i = .setTarget d)

/-- Decisions D3 and D17: an accepted frequency's period is not negative; a pulse is at most the period,
grows with the duty, strictly when the period is 100 or more. -/
def Obligations.PeriodAndPulseStayInRange : Prop :=
  (∀ (cfg : Config) (n : Nat), 1000 ≤ n → n ≤ 50000 → periodFor cfg n + 1 = cfg.clkHz / n) ∧
  (∀ d p : Nat, d ≤ 100 → pulseFor d p ≤ p) ∧
  (∀ d e p : Nat, d ≤ e → pulseFor d p ≤ pulseFor e p) ∧
  (∀ d e p : Nat, d < e → 100 ≤ p → pulseFor d p < pulseFor e p)

/-! ## The ramp -/

/-- R191: RAMP.UP, selected below the target, moves the duty up by one, no further than the target, and writes all three pulse
registers; LAST_STEP_TICK apart, nothing else changes. -/
def Obligations.RampUpStepsTowardTheTarget : Prop :=
  ∀ (s : State) (q : Nat), s.dutyNow.toNat < s.dutyTarget.toNat → s.dutyTarget.toNat ≤ 100 →
    q = (s.dutyNow.toNat + 1) * s.period / 100 →
    rampSelect s = .rampUp ∧ ∃ t, exec .rampUp s = .next t ∧ t.dutyNow.toNat = s.dutyNow.toNat + 1 ∧
      t.dutyNow.toNat ≤ t.dutyTarget.toNat ∧ SameMemory s t ∧
      t = { s with dutyNow := t.dutyNow, pulse1 := q, pulse2 := q, pulse3 := q,
                   lastStepTick := t.lastStepTick, portLog := s.portLog ++ [.setPulse q q q] }

/-- R192: RAMP.DOWN, selected above the target, likewise by one down. -/
def Obligations.RampDownStepsTowardTheTarget : Prop :=
  ∀ (s : State) (q : Nat), s.dutyTarget.toNat < s.dutyNow.toNat → s.dutyNow.toNat ≤ 100 →
    q = (s.dutyNow.toNat - 1) * s.period / 100 →
    rampSelect s = .rampDown ∧ ∃ t, exec .rampDown s = .next t ∧ t.dutyNow.toNat = s.dutyNow.toNat - 1 ∧
      t.dutyTarget.toNat ≤ t.dutyNow.toNat ∧ SameMemory s t ∧
      t = { s with dutyNow := t.dutyNow, pulse1 := q, pulse2 := q, pulse3 := q,
                   lastStepTick := t.lastStepTick, portLog := s.portLog ++ [.setPulse q q q] }

/-- Decision D5 (log 18, log 9): a firing with the duty at its target (R193) selects RAMP.HOLD, whose only
effect is the update of LAST_STEP_TICK; no backend write. -/
def Obligations.RampHoldOnlySamplesTheTick : Prop :=
  ∀ s : State, s.dutyNow = s.dutyTarget →
    rampSelect s = .rampHold ∧ exec .rampHold s = .next { s with lastStepTick := s.tick }

/-- R200 with decisions D5 (a firing samples the tick) and D4 (ticks are counted modulo 2^32), log 18.
Under LOOP_FAST (R213), in any run whose events are ticks and polls and whose last tick has been polled,
the ramp fires once for each 20 ms, from whatever phase `e` of the cadence it starts in: the distance to
the target shrinks by exactly the number of firings, to 0 and no further. The same, firing by firing,
when the main loop is slower than LOOP_FAST allows but polls at every cadence point: rounds of twenty
ticks and one poll. -/
def Obligations.RampReachesTheTargetInItsDistanceOfRounds : Prop :=
  (∀ (s : State) (n e k f : Nat), s.booted = true → s.lineReady = false → PwmInv s → e < 20 →
    s.tick = s.lastStepTick + BitVec.ofNat 32 e → LoopFast (executed n s) →
    (∀ x ∈ executed n s, x = .tick ∨ x = .loop) → (executed n s).getLast? ≠ some .tick →
    k = (executed n s).count .tick → f = (e + k) / 20 →
    ∃ t, runFor n s = .next t ∧ t.dutyTarget = s.dutyTarget ∧ t.tick = s.tick + BitVec.ofNat 32 k ∧
      t.lastStepTick = s.lastStepTick + BitVec.ofNat 32 (20 * f) ∧
      (s.dutyNow.toNat ≤ s.dutyTarget.toNat →
        t.dutyNow.toNat = min s.dutyTarget.toNat (s.dutyNow.toNat + f)) ∧
      (s.dutyTarget.toNat ≤ s.dutyNow.toNat →
        t.dutyNow.toNat = max s.dutyTarget.toNat (s.dutyNow.toNat - f))) ∧
  (∀ (s : State) (n : Nat) (rest : List Event), s.booted = true → s.lineReady = false → PwmInv s →
    s.lastStepTick = s.tick → s.events = cadenceRounds n ++ rest →
    ∃ t, runFor (21 * n) s = .next t ∧ t.events = rest ∧ t.dutyTarget = s.dutyTarget ∧
      t.tick = s.tick + BitVec.ofNat 32 (20 * n) ∧ t.lastStepTick = t.tick ∧
      (s.dutyNow.toNat ≤ s.dutyTarget.toNat →
        t.dutyNow.toNat = min s.dutyTarget.toNat (s.dutyNow.toNat + n)) ∧
      (s.dutyTarget.toNat ≤ s.dutyNow.toNat →
        t.dutyNow.toNat = max s.dutyTarget.toNat (s.dutyNow.toNat - n)))

/-- 43_ramp_scheduler.md section 3: one ramp check moves the duty by at most one, toward the target and
never past it, however late the loop; nothing else of PwmState moves and nothing is transmitted. -/
def Obligations.RampCheckNeverMovesAwayFromTheTarget : Prop :=
  ∀ s : State, PwmInv s → ∃ t, rampCheck s = .next t ∧
    t.dutyTarget = s.dutyTarget ∧ t.enabled = s.enabled ∧ t.freqHz = s.freqHz ∧ t.txLog = s.txLog ∧
    SameMemory s t ∧
    (s.dutyNow.toNat ≤ s.dutyTarget.toNat →
      s.dutyNow.toNat ≤ t.dutyNow.toNat ∧ t.dutyNow.toNat ≤ s.dutyNow.toNat + 1 ∧
      t.dutyNow.toNat ≤ s.dutyTarget.toNat) ∧
    (s.dutyTarget.toNat ≤ s.dutyNow.toNat →
      t.dutyNow.toNat ≤ s.dutyNow.toNat ∧ s.dutyNow.toNat ≤ t.dutyNow.toNat + 1 ∧
      s.dutyTarget.toNat ≤ t.dutyNow.toNat)

/-- 43_ramp_scheduler.md section 3: the ramp reads neither ENABLED nor OUT_EN nor any log; with the outputs
off it does what it does with them on. -/
def Obligations.RampDoesNotDependOnTheOutputs : Prop :=
  ∀ (s : State) (e o : Bool),
    rampCheck { s with enabled := e, outEn := o } =
      mapNext (fun t => { t with enabled := e, outEn := o }) (rampCheck s)

/-- 70_reset_and_hazards.md section 4: the backend calls of a `Loop` that dispatches an accepted FREQ and
steps the ramp: disable, period, pulses, enable, and last the step's pulses. The spec's own choices in it
(log 18): decision D6, the command comes before the ramp check; D5, the firing sets LAST_STEP_TICK to the
sampled TICK; D4, the elapsed time is counted modulo 2^32. -/
def Obligations.FreqAndRampStepShareOneLoopInOrder : Prop :=
  ∀ (s t : State) (f : Int) (L : Text), s.lineReady = true → lineText s = some L →
    decodeLine L = .freq f → 1000 ≤ f → f ≤ 50000 → s.dutyNow ≠ s.dutyTarget → PwmInv s →
    20 ≤ (s.tick.toNat + 2 ^ 32 - s.lastStepTick.toNat) % 2 ^ 32 → loopEvent s = .next t →
    ∃ p q r, t.portLog.filter PortAction.isBackend = s.portLog.filter PortAction.isBackend ++
        [.disable, .setPeriod p, .setPulse q q q, .enable, .setPulse r r r] ∧
      t.period = p ∧ t.pulse1 = r ∧ t.lastStepTick = s.tick

/-! ## Whole-machine rules -/

/-- R202: an `Rx` event steps no ramp, reads no tick and touches no PwmState; a `Tick` event touches
neither; so only the main loop and a reset do. -/
def Obligations.OnlyTheMainLoopTouchesPwmState : Prop :=
  (∀ (s t : State) (e : Event) (rest : List Event), s.events = e :: rest →
    (∃ b, e = .rx b) ∨ e = .tick → step s = .next t →
    pwmRegs t = pwmRegs s ∧ backendRegs t = backendRegs s ∧ t.lastStepTick = s.lastStepTick ∧
    t.txLog = s.txLog) ∧
  (∀ (b : Byte) (s : State) (now target : BitVec 7) (e : Bool) (f : BitVec 16) (l k : BitVec 32),
    rxEvent b { s with dutyNow := now, dutyTarget := target, enabled := e, freqHz := f,
                       lastStepTick := l, tick := k } =
      mapNext (fun t => { t with dutyNow := now, dutyTarget := target, enabled := e, freqHz := f,
                                 lastStepTick := l, tick := k }) (rxEvent b s))

/-- The access summary of 10_state.md section 9 as a frame over all well-formed instructions: which of
them may write each register, flag, log and byte of memory; no instruction writes TICK, the
configuration or the schedule. -/
def Obligations.EachRegisterHasItsWriters : Prop :=
  ∀ (i : Instr) (s t : State), i.wf = true → exec i s = .next t →
    (¬ SameMemory s t → i.format = .BYTE) ∧
    (t.writeIndex ≠ s.writeIndex → i.format = .BYTE) ∧
    (t.lineReady ≠ s.lineReady → i = .rxCr ∨ i = .rxLf ∨ i = .take) ∧
    (t.rxArmed ≠ s.rxArmed → i.format = .BYTE ∨ i = .rearm) ∧
    (t.dutyNow ≠ s.dutyNow → i = .rampUp ∨ i = .rampDown ∨ (∃ d, i = .setDuty d) ∨
      (∃ f, i = .freq f) ∨ ∃ f, i = .setFrequencyAccept f) ∧
    (t.dutyTarget ≠ s.dutyTarget → (∃ v, i = .set v) ∨ ∃ d, i = .setTarget d) ∧
    ((t.enabled ≠ s.enabled ∨ t.outEn ≠ s.outEn) →
      i = .start ∨ i = .stop ∨ (∃ a, i = .facadeStart a) ∨ (∃ a, i = .facadeStop a) ∨
      (∃ f, i = .freq f) ∨ ∃ f, i = .setFrequencyAccept f) ∧
    ((t.freqHz ≠ s.freqHz ∨ t.period ≠ s.period) →
      (∃ f, i = .freq f) ∨ ∃ f, i = .setFrequencyAccept f) ∧
    (t.lastStepTick ≠ s.lastStepTick → i.format = .RAMP) ∧
    ((t.pulse1, t.pulse2, t.pulse3) ≠ (s.pulse1, s.pulse2, s.pulse3) →
      i = .rampUp ∨ i = .rampDown ∨ (∃ d, i = .setDuty d) ∨ (∃ f, i = .freq f) ∨
      ∃ f, i = .setFrequencyAccept f) ∧
    (t.txLog ≠ s.txLog → i.isCommand = true ∨ (∃ a, i = .facadeStart a) ∨ (∃ a, i = .facadeStop a) ∨
      (∃ f, i = .setFrequencyAccept f) ∨ ∃ f, i = .setFrequencyReject f) ∧
    t.tick = s.tick ∧ t.cfg = s.cfg ∧ t.draw = s.draw ∧ t.booted = s.booted ∧ t.events = s.events

/-- 44_main_loop.md section 3 (decision D1): a byte that arrives before a command or a ramp operation and
one that arrives after it leave the same state, but for their order in the port log. -/
def Obligations.ReceptionCommutesWithCommands : Prop :=
  ∀ (b : Byte) (i : Instr) (s : State), i.isCommand = true ∨ i.format = .RAMP →
    mapNext (fun t => { t with portLog := [] }) (andThen (exec (decodeByte b) s) (exec i)) =
      mapNext (fun t => { t with portLog := [] }) (andThen (exec i s) (exec (decodeByte b)))

/-- 44_main_loop.md section 5 (decision D29): no step is refused; under the framer's invariant a step
faults only where a `Loop` takes a ready line from a buffer without a 0x00. -/
def Obligations.OnlyAnUnterminatedTakeFaults : Prop :=
  ∀ s : State,
    (∀ r, step s ≠ .refused r) ∧
    (FramerInv s → ∀ f, step s = .fault f →
      f = .lineUnterminated ∧ s.booted = true ∧ (s.events = [] ∨ s.events.head? = some .loop) ∧
      s.lineReady = true ∧ ∀ k, k < s.cfg.cap → s.lineByte k ≠ 0x00)

/-- 10_state.md section 6, log 8: but for a reset a step only appends to TXLOG and to the port log, and
TXLOG stays the bytes the port log transmitted. -/
def Obligations.LogsOnlyGrowAndAgree : Prop :=
  ∀ s t : State, step s = .next t →
    (s.events.head? ≠ some .reset → s.txLog <+: t.txLog ∧ s.portLog <+: t.portLog) ∧
    (s.txLog = (s.portLog.map PortAction.txBytes).flatten →
      t.txLog = (t.portLog.map PortAction.txBytes).flatten)

/-- Log 1, the model's choice: the configuration is fixed; no step changes it. -/
def Obligations.StepKeepsTheConfiguration : Prop :=
  ∀ s t : State, step s = .next t → t.cfg = s.cfg

/-! ## Invariants -/

/-- R32: every step, and every instruction by itself, keeps the PwmState invariants. -/
def Obligations.PwmInvariantIsKept : Prop :=
  (∀ s t : State, PwmInv s → step s = .next t → PwmInv t) ∧
  (∀ (i : Instr) (s t : State), PwmInv s → exec i s = .next t → PwmInv t)

/-- 10_state.md section 2, 20_memory.md section 5: every step keeps the line buffer canonical and inside
0..C-1 and WRITE_INDEX a valid index. -/
def Obligations.FramerInvariantIsKept : Prop :=
  ∀ s t : State, FramerInv s → step s = .next t → FramerInv t

/-- 10_state.md section 5, 40_line_framer.md section 3: after `Boot` and every later event the pulses are
DUTY_NOW percent of the period, the period is that of FREQ_HZ, ENABLED is OUT_EN and a receive is armed. -/
def Obligations.BackendPictureIsKept : Prop :=
  ∀ s t : State, PwmInv s → BackendInv s → step s = .next t → BackendInv t

/-- The three invariants hold right after reset, under every configuration. -/
def Obligations.ResetMeetsTheInvariants : Prop :=
  ∀ (cfg : Config) (draw : Nat), FramerInv (State.resetWith cfg draw) ∧
    PwmInv (State.resetWith cfg draw) ∧ BackendInv (State.resetWith cfg draw) ∧
    FramerInv State.reset ∧ PwmInv State.reset ∧ BackendInv State.reset
end

