-- ==== Sys2Proof/Laws/Decode.lean ====
section
/-! SUPPORT. One lemma for each part of the decoder and the encoder: keywords, the integer parser, the
decimal spelling. -/

namespace Sys2Proof

/-! ## Keywords -/

theorem afterKeyword_some (p L T : Text) : afterKeyword p L = some T ↔ L = p ++ T := by
  induction p generalizing L with
  | nil => simp [afterKeyword]
  | cons a p ih =>
    cases L with
    | nil => simp [afterKeyword]
    | cons b L =>
      by_cases h : a = b
      · simp [afterKeyword, h, ih]
      · simp [afterKeyword, h, Ne.symm h]

theorem afterKeyword_none (p L : Text) : afterKeyword p L = none ↔ ¬ ∃ T, L = p ++ T := by
  rw [← Option.not_isSome_iff_eq_none, Option.isSome_iff_exists]
  simp only [afterKeyword_some]

theorem afterKeyword_append (p T : Text) : afterKeyword p (p ++ T) = some T :=
  (afterKeyword_some p _ T).2 rfl

theorem decodeLine_set (T : Text) : decodeLine (kwSet ++ T) = .set (parseInt T) := by
  simp [decodeLine, afterKeyword_append]

theorem decodeLine_freq (T : Text) : decodeLine (kwFreq ++ T) = .freq (parseInt T) := by
  have h : afterKeyword kwSet (kwFreq ++ T) = none := by
    simp [kwSet, kwFreq, afterKeyword]
  simp [decodeLine, afterKeyword_append, h]

/-- A line with neither prefix is decoded by the exact patterns. -/
theorem decodeLine_exact {L : Text} (h1 : ¬ ∃ T, L = kwSet ++ T) (h2 : ¬ ∃ T, L = kwFreq ++ T) :
    decodeLine L = decodeExact L := by
  simp [decodeLine, (afterKeyword_none _ _).2 h1, (afterKeyword_none _ _).2 h2]

/-! ## The integer parser -/

theorem isDigit_iff (b : Byte) : isDigit b = true ↔ 0x30 ≤ b.toNat ∧ b.toNat ≤ 0x39 := by
  simp [isDigit]

/-- One digit read: `10 * v + digit`. -/
def digitStep (v : Nat) (b : Byte) : Nat := 10 * v + (b.toNat - 0x30)

theorem digitsValue_digits (D : Text) (v : Nat) (h : ∀ b ∈ D, isDigit b = true) :
    digitsValue v D = D.foldl digitStep v := by
  induction D generalizing v with
  | nil => rfl
  | cons b D ih =>
    simp [digitsValue, h b (by simp), ih _ fun c hc => h c (by simp [hc]), digitStep]

/-- Reading ends at the first byte that is no digit. -/
theorem digitsValue_stop (D : Text) (b : Byte) (T : Text) (v : Nat) (h : ∀ d ∈ D, isDigit d = true)
    (hb : isDigit b = false) : digitsValue v (D ++ b :: T) = D.foldl digitStep v := by
  induction D generalizing v with
  | nil => simp [digitsValue, hb]
  | cons d D ih =>
    simp [digitsValue, h d (by simp), ih _ fun c hc => h c (by simp [hc]), digitStep]

theorem digit_not_blank {b : Byte} (h : isDigit b = true) : isBlank b = false := by
  rw [isDigit_iff] at h
  simp only [isBlank, Bool.or_eq_false_iff, beq_eq_false_iff_ne, ne_eq]
  refine ⟨⟨⟨?_, ?_⟩, ?_⟩, ?_⟩ <;> · rintro rfl; simp at h

theorem digit_not_sign {b : Byte} (h : isDigit b = true) : b ≠ 0x2D ∧ b ≠ 0x2B := by
  rw [isDigit_iff] at h
  constructor <;> · rintro rfl; simp at h

/-- A text that begins with a digit is read from there, without a sign. -/
theorem parseInt_digit (b : Byte) (T : Text) (h : isDigit b = true) :
    parseInt (b :: T) = digitsValue 0 (b :: T) := by
  have hs := digit_not_sign h
  simp only [parseInt, skipBlanks, digit_not_blank h, Bool.false_eq_true, if_false, hs.1, hs.2]

theorem parseInt_minus (T : Text) : parseInt (0x2D :: T) = -(digitsValue 0 T : Int) := by
  simp [parseInt, skipBlanks, isBlank]

theorem parseInt_plus (T : Text) : parseInt (0x2B :: T) = digitsValue 0 T := by
  simp [parseInt, skipBlanks, isBlank]

theorem parseInt_blank (b : Byte) (T : Text) (h : isBlank b = true) : parseInt (b :: T) = parseInt T := by
  simp [parseInt, skipBlanks, h]

/-! ## The decimal spelling -/

theorem digitByte_toNat (d : Nat) (h : d < 10) : (digitByte d).toNat = 0x30 + d := by
  simp only [digitByte, BitVec.toNat_ofNat]
  omega

theorem digitByte_isDigit (d : Nat) (h : d < 10) : isDigit (digitByte d) = true := by
  rw [isDigit_iff, digitByte_toNat d h]
  omega

/-- Everything `decDigits` does with enough fuel: it puts before `acc` the digits of `n`, the minimal
ones. -/
theorem decDigits_spec (fuel n : Nat) (acc : Text) (h : n < fuel) :
    ∃ D : Text, decDigits fuel n acc = D ++ acc ∧ D ≠ [] ∧ (∀ b ∈ D, isDigit b = true) ∧
      D.foldl digitStep 0 = n ∧ (n ≠ 0 → D.head? ≠ some 0x30) ∧ (n = 0 → D = [0x30]) := by
  induction fuel generalizing n acc with
  | zero => omega
  | succ fuel ih =>
    have hlt : n % 10 < 10 := Nat.mod_lt _ (by omega)
    unfold decDigits
    split
    · rename_i h0
      refine ⟨[digitByte (n % 10)], rfl, by simp, by simp [digitByte_isDigit _ hlt], ?_, ?_, ?_⟩
      · simp only [List.foldl_cons, List.foldl_nil, digitStep, digitByte_toNat _ hlt]
        omega
      · intro hn hd
        have := congrArg BitVec.toNat (Option.some.inj hd)
        rw [digitByte_toNat _ hlt] at this
        simp at this
        omega
      · rintro rfl
        rfl
    · rename_i h0
      obtain ⟨D, he, hne, hall, hv, hhead, -⟩ := ih (n / 10) (digitByte (n % 10) :: acc) (by omega)
      refine ⟨D ++ [digitByte (n % 10)], by simp [he], by simp, ?_, ?_, ?_, fun hn => by omega⟩
      · intro b hb
        rcases List.mem_append.1 hb with hb | hb
        · exact hall b hb
        · simp only [List.mem_singleton] at hb
          exact hb ▸ digitByte_isDigit _ hlt
      · simp only [List.foldl_append, hv, List.foldl_cons, List.foldl_nil, digitStep,
          digitByte_toNat _ hlt]
        omega
      · intro _
        cases D with
        | nil => exact absurd rfl hne
        | cons d D => simpa using hhead h0

/-- `dec n` is digits only, at least one, of value `n`, minimal. -/
theorem dec_spec (n : Nat) :
    dec n ≠ [] ∧ (∀ b ∈ dec n, isDigit b = true) ∧ (dec n).foldl digitStep 0 = n ∧
      (n ≠ 0 → (dec n).head? ≠ some 0x30) ∧ (n = 0 → dec n = [0x30]) := by
  obtain ⟨D, he, hs⟩ := decDigits_spec (n + 1) n [] (by omega)
  have : dec n = D := by simp [dec, he]
  exact this ▸ hs

theorem digitsValue_dec (n : Nat) : digitsValue 0 (dec n) = n := by
  obtain ⟨-, hall, hv, -, -⟩ := dec_spec n
  rw [digitsValue_digits _ _ hall, hv]

/-- The parser reads the decimal spelling of an integer back. -/
theorem parseInt_decInt (v : Int) : parseInt (decInt v) = v := by
  unfold decInt
  split
  · rw [parseInt_minus, digitsValue_dec]
    omega
  · obtain ⟨hne, hall, -⟩ := dec_spec v.natAbs
    cases hd : dec v.natAbs with
    | nil => exact absurd hd hne
    | cons b D =>
      rw [parseInt_digit _ _ (hall b (by simp [hd])), ← hd, digitsValue_dec]
      omega

/-! ## Line texts -/

theorem digit_isLineByte {b : Byte} (h : isDigit b = true) : isLineByte b = true := by
  rw [isDigit_iff] at h
  simp only [isLineByte, CR, LF, Bool.and_eq_true, bne_iff_ne, ne_eq]
  refine ⟨⟨?_, ?_⟩, ?_⟩ <;> · rintro rfl; simp at h

theorem isLineText_append (L M : Text) : isLineText (L ++ M) = (isLineText L && isLineText M) := by
  simp [isLineText]

theorem isLineText_decInt (v : Int) : isLineText (decInt v) = true := by
  have hd : isLineText (dec v.natAbs) = true := by
    obtain ⟨-, hall, -⟩ := dec_spec v.natAbs
    simp only [isLineText, List.all_eq_true]
    exact fun b hb => digit_isLineByte (hall b hb)
  unfold decInt
  split
  · have h : isLineByte 0x2D = true := rfl
    simp only [isLineText, List.all_cons, Bool.and_eq_true]
    exact ⟨h, hd⟩
  · exact hd

theorem isLineText_iff (L : Text) :
    isLineText L = true ↔ ∀ b ∈ L, b ≠ 0x00 ∧ b ≠ 0x0D ∧ b ≠ 0x0A := by
  simp [isLineText, isLineByte, CR, LF, and_assoc]

end Sys2Proof
end

