-- ==== Sys2Proof/Laws/State.lean ====
section
/-! SUPPORT. One lemma per field per base update of State, true by rfl, so that no later proof unfolds a
record update. -/

namespace Sys2Proof.Machine

@[simp] theorem setLineReady_cfg (s : State) :
    (setLineReady s).cfg = s.cfg := rfl
@[simp] theorem setLineReady_lineBuf (s : State) :
    (setLineReady s).lineBuf = s.lineBuf := rfl
@[simp] theorem setLineReady_draw (s : State) :
    (setLineReady s).draw = s.draw := rfl
@[simp] theorem setLineReady_writeIndex (s : State) :
    (setLineReady s).writeIndex = s.writeIndex := rfl
@[simp] theorem setLineReady_lineReady (s : State) :
    (setLineReady s).lineReady = true := rfl
@[simp] theorem setLineReady_rxArmed (s : State) :
    (setLineReady s).rxArmed = s.rxArmed := rfl
@[simp] theorem setLineReady_dutyNow (s : State) :
    (setLineReady s).dutyNow = s.dutyNow := rfl
@[simp] theorem setLineReady_dutyTarget (s : State) :
    (setLineReady s).dutyTarget = s.dutyTarget := rfl
@[simp] theorem setLineReady_enabled (s : State) :
    (setLineReady s).enabled = s.enabled := rfl
@[simp] theorem setLineReady_freqHz (s : State) :
    (setLineReady s).freqHz = s.freqHz := rfl
@[simp] theorem setLineReady_lastStepTick (s : State) :
    (setLineReady s).lastStepTick = s.lastStepTick := rfl
@[simp] theorem setLineReady_tick (s : State) :
    (setLineReady s).tick = s.tick := rfl
@[simp] theorem setLineReady_period (s : State) :
    (setLineReady s).period = s.period := rfl
@[simp] theorem setLineReady_pulse1 (s : State) :
    (setLineReady s).pulse1 = s.pulse1 := rfl
@[simp] theorem setLineReady_pulse2 (s : State) :
    (setLineReady s).pulse2 = s.pulse2 := rfl
@[simp] theorem setLineReady_pulse3 (s : State) :
    (setLineReady s).pulse3 = s.pulse3 := rfl
@[simp] theorem setLineReady_outEn (s : State) :
    (setLineReady s).outEn = s.outEn := rfl
@[simp] theorem setLineReady_txLog (s : State) :
    (setLineReady s).txLog = s.txLog := rfl
@[simp] theorem setLineReady_portLog (s : State) :
    (setLineReady s).portLog = s.portLog := rfl
@[simp] theorem setLineReady_booted (s : State) :
    (setLineReady s).booted = s.booted := rfl
@[simp] theorem setLineReady_events (s : State) :
    (setLineReady s).events = s.events := rfl

@[simp] theorem clearLineReady_cfg (s : State) :
    (clearLineReady s).cfg = s.cfg := rfl
@[simp] theorem clearLineReady_lineBuf (s : State) :
    (clearLineReady s).lineBuf = s.lineBuf := rfl
@[simp] theorem clearLineReady_draw (s : State) :
    (clearLineReady s).draw = s.draw := rfl
@[simp] theorem clearLineReady_writeIndex (s : State) :
    (clearLineReady s).writeIndex = s.writeIndex := rfl
@[simp] theorem clearLineReady_lineReady (s : State) :
    (clearLineReady s).lineReady = false := rfl
@[simp] theorem clearLineReady_rxArmed (s : State) :
    (clearLineReady s).rxArmed = s.rxArmed := rfl
@[simp] theorem clearLineReady_dutyNow (s : State) :
    (clearLineReady s).dutyNow = s.dutyNow := rfl
@[simp] theorem clearLineReady_dutyTarget (s : State) :
    (clearLineReady s).dutyTarget = s.dutyTarget := rfl
@[simp] theorem clearLineReady_enabled (s : State) :
    (clearLineReady s).enabled = s.enabled := rfl
@[simp] theorem clearLineReady_freqHz (s : State) :
    (clearLineReady s).freqHz = s.freqHz := rfl
@[simp] theorem clearLineReady_lastStepTick (s : State) :
    (clearLineReady s).lastStepTick = s.lastStepTick := rfl
@[simp] theorem clearLineReady_tick (s : State) :
    (clearLineReady s).tick = s.tick := rfl
@[simp] theorem clearLineReady_period (s : State) :
    (clearLineReady s).period = s.period := rfl
@[simp] theorem clearLineReady_pulse1 (s : State) :
    (clearLineReady s).pulse1 = s.pulse1 := rfl
@[simp] theorem clearLineReady_pulse2 (s : State) :
    (clearLineReady s).pulse2 = s.pulse2 := rfl
@[simp] theorem clearLineReady_pulse3 (s : State) :
    (clearLineReady s).pulse3 = s.pulse3 := rfl
@[simp] theorem clearLineReady_outEn (s : State) :
    (clearLineReady s).outEn = s.outEn := rfl
@[simp] theorem clearLineReady_txLog (s : State) :
    (clearLineReady s).txLog = s.txLog := rfl
@[simp] theorem clearLineReady_portLog (s : State) :
    (clearLineReady s).portLog = s.portLog := rfl
@[simp] theorem clearLineReady_booted (s : State) :
    (clearLineReady s).booted = s.booted := rfl
@[simp] theorem clearLineReady_events (s : State) :
    (clearLineReady s).events = s.events := rfl

@[simp] theorem setEnabled_cfg (v : Bool) (s : State) :
    (setEnabled v s).cfg = s.cfg := rfl
@[simp] theorem setEnabled_lineBuf (v : Bool) (s : State) :
    (setEnabled v s).lineBuf = s.lineBuf := rfl
@[simp] theorem setEnabled_draw (v : Bool) (s : State) :
    (setEnabled v s).draw = s.draw := rfl
@[simp] theorem setEnabled_writeIndex (v : Bool) (s : State) :
    (setEnabled v s).writeIndex = s.writeIndex := rfl
@[simp] theorem setEnabled_lineReady (v : Bool) (s : State) :
    (setEnabled v s).lineReady = s.lineReady := rfl
@[simp] theorem setEnabled_rxArmed (v : Bool) (s : State) :
    (setEnabled v s).rxArmed = s.rxArmed := rfl
@[simp] theorem setEnabled_dutyNow (v : Bool) (s : State) :
    (setEnabled v s).dutyNow = s.dutyNow := rfl
@[simp] theorem setEnabled_dutyTarget (v : Bool) (s : State) :
    (setEnabled v s).dutyTarget = s.dutyTarget := rfl
@[simp] theorem setEnabled_enabled (v : Bool) (s : State) :
    (setEnabled v s).enabled = v := rfl
@[simp] theorem setEnabled_freqHz (v : Bool) (s : State) :
    (setEnabled v s).freqHz = s.freqHz := rfl
@[simp] theorem setEnabled_lastStepTick (v : Bool) (s : State) :
    (setEnabled v s).lastStepTick = s.lastStepTick := rfl
@[simp] theorem setEnabled_tick (v : Bool) (s : State) :
    (setEnabled v s).tick = s.tick := rfl
@[simp] theorem setEnabled_period (v : Bool) (s : State) :
    (setEnabled v s).period = s.period := rfl
@[simp] theorem setEnabled_pulse1 (v : Bool) (s : State) :
    (setEnabled v s).pulse1 = s.pulse1 := rfl
@[simp] theorem setEnabled_pulse2 (v : Bool) (s : State) :
    (setEnabled v s).pulse2 = s.pulse2 := rfl
@[simp] theorem setEnabled_pulse3 (v : Bool) (s : State) :
    (setEnabled v s).pulse3 = s.pulse3 := rfl
@[simp] theorem setEnabled_outEn (v : Bool) (s : State) :
    (setEnabled v s).outEn = s.outEn := rfl
@[simp] theorem setEnabled_txLog (v : Bool) (s : State) :
    (setEnabled v s).txLog = s.txLog := rfl
@[simp] theorem setEnabled_portLog (v : Bool) (s : State) :
    (setEnabled v s).portLog = s.portLog := rfl
@[simp] theorem setEnabled_booted (v : Bool) (s : State) :
    (setEnabled v s).booted = s.booted := rfl
@[simp] theorem setEnabled_events (v : Bool) (s : State) :
    (setEnabled v s).events = s.events := rfl

@[simp] theorem setRxArmed_cfg (v : Bool) (s : State) :
    (setRxArmed v s).cfg = s.cfg := rfl
@[simp] theorem setRxArmed_lineBuf (v : Bool) (s : State) :
    (setRxArmed v s).lineBuf = s.lineBuf := rfl
@[simp] theorem setRxArmed_draw (v : Bool) (s : State) :
    (setRxArmed v s).draw = s.draw := rfl
@[simp] theorem setRxArmed_writeIndex (v : Bool) (s : State) :
    (setRxArmed v s).writeIndex = s.writeIndex := rfl
@[simp] theorem setRxArmed_lineReady (v : Bool) (s : State) :
    (setRxArmed v s).lineReady = s.lineReady := rfl
@[simp] theorem setRxArmed_rxArmed (v : Bool) (s : State) :
    (setRxArmed v s).rxArmed = v := rfl
@[simp] theorem setRxArmed_dutyNow (v : Bool) (s : State) :
    (setRxArmed v s).dutyNow = s.dutyNow := rfl
@[simp] theorem setRxArmed_dutyTarget (v : Bool) (s : State) :
    (setRxArmed v s).dutyTarget = s.dutyTarget := rfl
@[simp] theorem setRxArmed_enabled (v : Bool) (s : State) :
    (setRxArmed v s).enabled = s.enabled := rfl
@[simp] theorem setRxArmed_freqHz (v : Bool) (s : State) :
    (setRxArmed v s).freqHz = s.freqHz := rfl
@[simp] theorem setRxArmed_lastStepTick (v : Bool) (s : State) :
    (setRxArmed v s).lastStepTick = s.lastStepTick := rfl
@[simp] theorem setRxArmed_tick (v : Bool) (s : State) :
    (setRxArmed v s).tick = s.tick := rfl
@[simp] theorem setRxArmed_period (v : Bool) (s : State) :
    (setRxArmed v s).period = s.period := rfl
@[simp] theorem setRxArmed_pulse1 (v : Bool) (s : State) :
    (setRxArmed v s).pulse1 = s.pulse1 := rfl
@[simp] theorem setRxArmed_pulse2 (v : Bool) (s : State) :
    (setRxArmed v s).pulse2 = s.pulse2 := rfl
@[simp] theorem setRxArmed_pulse3 (v : Bool) (s : State) :
    (setRxArmed v s).pulse3 = s.pulse3 := rfl
@[simp] theorem setRxArmed_outEn (v : Bool) (s : State) :
    (setRxArmed v s).outEn = s.outEn := rfl
@[simp] theorem setRxArmed_txLog (v : Bool) (s : State) :
    (setRxArmed v s).txLog = s.txLog := rfl
@[simp] theorem setRxArmed_portLog (v : Bool) (s : State) :
    (setRxArmed v s).portLog = s.portLog := rfl
@[simp] theorem setRxArmed_booted (v : Bool) (s : State) :
    (setRxArmed v s).booted = s.booted := rfl
@[simp] theorem setRxArmed_events (v : Bool) (s : State) :
    (setRxArmed v s).events = s.events := rfl

@[simp] theorem setOutEn_cfg (v : Bool) (s : State) :
    (setOutEn v s).cfg = s.cfg := rfl
@[simp] theorem setOutEn_lineBuf (v : Bool) (s : State) :
    (setOutEn v s).lineBuf = s.lineBuf := rfl
@[simp] theorem setOutEn_draw (v : Bool) (s : State) :
    (setOutEn v s).draw = s.draw := rfl
@[simp] theorem setOutEn_writeIndex (v : Bool) (s : State) :
    (setOutEn v s).writeIndex = s.writeIndex := rfl
@[simp] theorem setOutEn_lineReady (v : Bool) (s : State) :
    (setOutEn v s).lineReady = s.lineReady := rfl
@[simp] theorem setOutEn_rxArmed (v : Bool) (s : State) :
    (setOutEn v s).rxArmed = s.rxArmed := rfl
@[simp] theorem setOutEn_dutyNow (v : Bool) (s : State) :
    (setOutEn v s).dutyNow = s.dutyNow := rfl
@[simp] theorem setOutEn_dutyTarget (v : Bool) (s : State) :
    (setOutEn v s).dutyTarget = s.dutyTarget := rfl
@[simp] theorem setOutEn_enabled (v : Bool) (s : State) :
    (setOutEn v s).enabled = s.enabled := rfl
@[simp] theorem setOutEn_freqHz (v : Bool) (s : State) :
    (setOutEn v s).freqHz = s.freqHz := rfl
@[simp] theorem setOutEn_lastStepTick (v : Bool) (s : State) :
    (setOutEn v s).lastStepTick = s.lastStepTick := rfl
@[simp] theorem setOutEn_tick (v : Bool) (s : State) :
    (setOutEn v s).tick = s.tick := rfl
@[simp] theorem setOutEn_period (v : Bool) (s : State) :
    (setOutEn v s).period = s.period := rfl
@[simp] theorem setOutEn_pulse1 (v : Bool) (s : State) :
    (setOutEn v s).pulse1 = s.pulse1 := rfl
@[simp] theorem setOutEn_pulse2 (v : Bool) (s : State) :
    (setOutEn v s).pulse2 = s.pulse2 := rfl
@[simp] theorem setOutEn_pulse3 (v : Bool) (s : State) :
    (setOutEn v s).pulse3 = s.pulse3 := rfl
@[simp] theorem setOutEn_outEn (v : Bool) (s : State) :
    (setOutEn v s).outEn = v := rfl
@[simp] theorem setOutEn_txLog (v : Bool) (s : State) :
    (setOutEn v s).txLog = s.txLog := rfl
@[simp] theorem setOutEn_portLog (v : Bool) (s : State) :
    (setOutEn v s).portLog = s.portLog := rfl
@[simp] theorem setOutEn_booted (v : Bool) (s : State) :
    (setOutEn v s).booted = s.booted := rfl
@[simp] theorem setOutEn_events (v : Bool) (s : State) :
    (setOutEn v s).events = s.events := rfl

@[simp] theorem memWrite_cfg (a : Nat) (b : Byte) (s : State) :
    (memWrite a b s).cfg = s.cfg := rfl
@[simp] theorem memWrite_lineBuf (a : Nat) (b : Byte) (s : State) :
    (memWrite a b s).lineBuf = s.lineBuf.write a b := rfl
@[simp] theorem memWrite_draw (a : Nat) (b : Byte) (s : State) :
    (memWrite a b s).draw = s.draw := rfl
@[simp] theorem memWrite_writeIndex (a : Nat) (b : Byte) (s : State) :
    (memWrite a b s).writeIndex = s.writeIndex := rfl
@[simp] theorem memWrite_lineReady (a : Nat) (b : Byte) (s : State) :
    (memWrite a b s).lineReady = s.lineReady := rfl
@[simp] theorem memWrite_rxArmed (a : Nat) (b : Byte) (s : State) :
    (memWrite a b s).rxArmed = s.rxArmed := rfl
@[simp] theorem memWrite_dutyNow (a : Nat) (b : Byte) (s : State) :
    (memWrite a b s).dutyNow = s.dutyNow := rfl
@[simp] theorem memWrite_dutyTarget (a : Nat) (b : Byte) (s : State) :
    (memWrite a b s).dutyTarget = s.dutyTarget := rfl
@[simp] theorem memWrite_enabled (a : Nat) (b : Byte) (s : State) :
    (memWrite a b s).enabled = s.enabled := rfl
@[simp] theorem memWrite_freqHz (a : Nat) (b : Byte) (s : State) :
    (memWrite a b s).freqHz = s.freqHz := rfl
@[simp] theorem memWrite_lastStepTick (a : Nat) (b : Byte) (s : State) :
    (memWrite a b s).lastStepTick = s.lastStepTick := rfl
@[simp] theorem memWrite_tick (a : Nat) (b : Byte) (s : State) :
    (memWrite a b s).tick = s.tick := rfl
@[simp] theorem memWrite_period (a : Nat) (b : Byte) (s : State) :
    (memWrite a b s).period = s.period := rfl
@[simp] theorem memWrite_pulse1 (a : Nat) (b : Byte) (s : State) :
    (memWrite a b s).pulse1 = s.pulse1 := rfl
@[simp] theorem memWrite_pulse2 (a : Nat) (b : Byte) (s : State) :
    (memWrite a b s).pulse2 = s.pulse2 := rfl
@[simp] theorem memWrite_pulse3 (a : Nat) (b : Byte) (s : State) :
    (memWrite a b s).pulse3 = s.pulse3 := rfl
@[simp] theorem memWrite_outEn (a : Nat) (b : Byte) (s : State) :
    (memWrite a b s).outEn = s.outEn := rfl
@[simp] theorem memWrite_txLog (a : Nat) (b : Byte) (s : State) :
    (memWrite a b s).txLog = s.txLog := rfl
@[simp] theorem memWrite_portLog (a : Nat) (b : Byte) (s : State) :
    (memWrite a b s).portLog = s.portLog := rfl
@[simp] theorem memWrite_booted (a : Nat) (b : Byte) (s : State) :
    (memWrite a b s).booted = s.booted := rfl
@[simp] theorem memWrite_events (a : Nat) (b : Byte) (s : State) :
    (memWrite a b s).events = s.events := rfl

@[simp] theorem logPort_cfg (p : PortAction) (s : State) :
    (logPort p s).cfg = s.cfg := rfl
@[simp] theorem logPort_lineBuf (p : PortAction) (s : State) :
    (logPort p s).lineBuf = s.lineBuf := rfl
@[simp] theorem logPort_draw (p : PortAction) (s : State) :
    (logPort p s).draw = s.draw := rfl
@[simp] theorem logPort_writeIndex (p : PortAction) (s : State) :
    (logPort p s).writeIndex = s.writeIndex := rfl
@[simp] theorem logPort_lineReady (p : PortAction) (s : State) :
    (logPort p s).lineReady = s.lineReady := rfl
@[simp] theorem logPort_rxArmed (p : PortAction) (s : State) :
    (logPort p s).rxArmed = s.rxArmed := rfl
@[simp] theorem logPort_dutyNow (p : PortAction) (s : State) :
    (logPort p s).dutyNow = s.dutyNow := rfl
@[simp] theorem logPort_dutyTarget (p : PortAction) (s : State) :
    (logPort p s).dutyTarget = s.dutyTarget := rfl
@[simp] theorem logPort_enabled (p : PortAction) (s : State) :
    (logPort p s).enabled = s.enabled := rfl
@[simp] theorem logPort_freqHz (p : PortAction) (s : State) :
    (logPort p s).freqHz = s.freqHz := rfl
@[simp] theorem logPort_lastStepTick (p : PortAction) (s : State) :
    (logPort p s).lastStepTick = s.lastStepTick := rfl
@[simp] theorem logPort_tick (p : PortAction) (s : State) :
    (logPort p s).tick = s.tick := rfl
@[simp] theorem logPort_period (p : PortAction) (s : State) :
    (logPort p s).period = s.period := rfl
@[simp] theorem logPort_pulse1 (p : PortAction) (s : State) :
    (logPort p s).pulse1 = s.pulse1 := rfl
@[simp] theorem logPort_pulse2 (p : PortAction) (s : State) :
    (logPort p s).pulse2 = s.pulse2 := rfl
@[simp] theorem logPort_pulse3 (p : PortAction) (s : State) :
    (logPort p s).pulse3 = s.pulse3 := rfl
@[simp] theorem logPort_outEn (p : PortAction) (s : State) :
    (logPort p s).outEn = s.outEn := rfl
@[simp] theorem logPort_txLog (p : PortAction) (s : State) :
    (logPort p s).txLog = s.txLog := rfl
@[simp] theorem logPort_portLog (p : PortAction) (s : State) :
    (logPort p s).portLog = s.portLog ++ [p] := rfl
@[simp] theorem logPort_booted (p : PortAction) (s : State) :
    (logPort p s).booted = s.booted := rfl
@[simp] theorem logPort_events (p : PortAction) (s : State) :
    (logPort p s).events = s.events := rfl

@[simp] theorem emit_cfg (x : Text) (s : State) :
    (emit x s).cfg = s.cfg := rfl
@[simp] theorem emit_lineBuf (x : Text) (s : State) :
    (emit x s).lineBuf = s.lineBuf := rfl
@[simp] theorem emit_draw (x : Text) (s : State) :
    (emit x s).draw = s.draw := rfl
@[simp] theorem emit_writeIndex (x : Text) (s : State) :
    (emit x s).writeIndex = s.writeIndex := rfl
@[simp] theorem emit_lineReady (x : Text) (s : State) :
    (emit x s).lineReady = s.lineReady := rfl
@[simp] theorem emit_rxArmed (x : Text) (s : State) :
    (emit x s).rxArmed = s.rxArmed := rfl
@[simp] theorem emit_dutyNow (x : Text) (s : State) :
    (emit x s).dutyNow = s.dutyNow := rfl
@[simp] theorem emit_dutyTarget (x : Text) (s : State) :
    (emit x s).dutyTarget = s.dutyTarget := rfl
@[simp] theorem emit_enabled (x : Text) (s : State) :
    (emit x s).enabled = s.enabled := rfl
@[simp] theorem emit_freqHz (x : Text) (s : State) :
    (emit x s).freqHz = s.freqHz := rfl
@[simp] theorem emit_lastStepTick (x : Text) (s : State) :
    (emit x s).lastStepTick = s.lastStepTick := rfl
@[simp] theorem emit_tick (x : Text) (s : State) :
    (emit x s).tick = s.tick := rfl
@[simp] theorem emit_period (x : Text) (s : State) :
    (emit x s).period = s.period := rfl
@[simp] theorem emit_pulse1 (x : Text) (s : State) :
    (emit x s).pulse1 = s.pulse1 := rfl
@[simp] theorem emit_pulse2 (x : Text) (s : State) :
    (emit x s).pulse2 = s.pulse2 := rfl
@[simp] theorem emit_pulse3 (x : Text) (s : State) :
    (emit x s).pulse3 = s.pulse3 := rfl
@[simp] theorem emit_outEn (x : Text) (s : State) :
    (emit x s).outEn = s.outEn := rfl
@[simp] theorem emit_txLog (x : Text) (s : State) :
    (emit x s).txLog = s.txLog ++ (x ++ s.cfg.txEol) := rfl
@[simp] theorem emit_portLog (x : Text) (s : State) :
    (emit x s).portLog = s.portLog ++ [.tx (x ++ s.cfg.txEol)] := rfl
@[simp] theorem emit_booted (x : Text) (s : State) :
    (emit x s).booted = s.booted := rfl
@[simp] theorem emit_events (x : Text) (s : State) :
    (emit x s).events = s.events := rfl

@[simp] theorem markFiring_cfg (s : State) :
    (markFiring s).cfg = s.cfg := rfl
@[simp] theorem markFiring_lineBuf (s : State) :
    (markFiring s).lineBuf = s.lineBuf := rfl
@[simp] theorem markFiring_draw (s : State) :
    (markFiring s).draw = s.draw := rfl
@[simp] theorem markFiring_writeIndex (s : State) :
    (markFiring s).writeIndex = s.writeIndex := rfl
@[simp] theorem markFiring_lineReady (s : State) :
    (markFiring s).lineReady = s.lineReady := rfl
@[simp] theorem markFiring_rxArmed (s : State) :
    (markFiring s).rxArmed = s.rxArmed := rfl
@[simp] theorem markFiring_dutyNow (s : State) :
    (markFiring s).dutyNow = s.dutyNow := rfl
@[simp] theorem markFiring_dutyTarget (s : State) :
    (markFiring s).dutyTarget = s.dutyTarget := rfl
@[simp] theorem markFiring_enabled (s : State) :
    (markFiring s).enabled = s.enabled := rfl
@[simp] theorem markFiring_freqHz (s : State) :
    (markFiring s).freqHz = s.freqHz := rfl
@[simp] theorem markFiring_lastStepTick (s : State) :
    (markFiring s).lastStepTick = s.tick := rfl
@[simp] theorem markFiring_tick (s : State) :
    (markFiring s).tick = s.tick := rfl
@[simp] theorem markFiring_period (s : State) :
    (markFiring s).period = s.period := rfl
@[simp] theorem markFiring_pulse1 (s : State) :
    (markFiring s).pulse1 = s.pulse1 := rfl
@[simp] theorem markFiring_pulse2 (s : State) :
    (markFiring s).pulse2 = s.pulse2 := rfl
@[simp] theorem markFiring_pulse3 (s : State) :
    (markFiring s).pulse3 = s.pulse3 := rfl
@[simp] theorem markFiring_outEn (s : State) :
    (markFiring s).outEn = s.outEn := rfl
@[simp] theorem markFiring_txLog (s : State) :
    (markFiring s).txLog = s.txLog := rfl
@[simp] theorem markFiring_portLog (s : State) :
    (markFiring s).portLog = s.portLog := rfl
@[simp] theorem markFiring_booted (s : State) :
    (markFiring s).booted = s.booted := rfl
@[simp] theorem markFiring_events (s : State) :
    (markFiring s).events = s.events := rfl

end Sys2Proof.Machine
end

