-- ==== Sys2Proof/Laws/Memory.lean ====
section
/-! SUPPORT. The laws of the line buffer: read after write, the canonical form, and what `lineText`
answers (20_memory.md). -/

namespace Sys2Proof.Machine

theorem lookup_write_same (m : Memory) (a : Nat) (b : Byte) : (m.write a b).lookup a = some b := by
  induction m with
  | nil => simp [Memory.write, Memory.lookup]
  | cons c m ih =>
    unfold Memory.write
    split
    · simp [Memory.lookup]
    · split
      · simp [Memory.lookup]
      · rename_i h1 h2
        simp [Memory.lookup, show c.1 ≠ a from fun h => h2 h.symm, ih]

theorem lookup_write_other (m : Memory) (a a' : Nat) (b : Byte) (h : a' ≠ a) :
    (m.write a b).lookup a' = m.lookup a' := by
  induction m with
  | nil => simp [Memory.write, Memory.lookup, h.symm]
  | cons c m ih =>
    unfold Memory.write
    split
    · simp [Memory.lookup, h.symm]
    · split
      · rename_i h1 h2
        subst h2
        simp [Memory.lookup, h.symm]
      · simp [Memory.lookup, ih]

theorem write_inside (m : Memory) (a n : Nat) (b : Byte) (ha : a < n) (hm : ∀ c ∈ m, c.1 < n) :
    ∀ c ∈ m.write a b, c.1 < n := by
  induction m with
  | nil => simp [Memory.write, ha]
  | cons c m ih =>
    have hc := hm c (by simp)
    have htl : ∀ d ∈ m, d.1 < n := fun d hd => hm d (by simp [hd])
    unfold Memory.write
    split
    · intro d hd
      rcases List.mem_cons.1 hd with rfl | hd
      · exact ha
      · exact hm d hd
    · split
      · intro d hd
        rcases List.mem_cons.1 hd with rfl | hd
        · exact ha
        · exact htl d hd
      · intro d hd
        rcases List.mem_cons.1 hd with rfl | hd
        · exact hc
        · exact ih htl d hd

theorem above_iff (a : Nat) (m : Memory) : Memory.above a m = true ↔ ∀ c ∈ m, a < c.1 := by
  simp [Memory.above]

theorem above_write (m : Memory) (k a : Nat) (b : Byte) (hk : k < a) (hm : Memory.above k m = true) :
    Memory.above k (m.write a b) = true := by
  rw [above_iff] at *
  induction m with
  | nil => simp [Memory.write, hk]
  | cons c m ih =>
    have hc := hm c (by simp)
    have htl : ∀ d ∈ m, k < d.1 := fun d hd => hm d (by simp [hd])
    unfold Memory.write
    intro d hd
    split at hd
    · rcases List.mem_cons.1 hd with rfl | hd
      · exact hk
      · exact hm d hd
    · split at hd
      · rcases List.mem_cons.1 hd with rfl | hd
        · exact hk
        · exact htl d hd
      · rcases List.mem_cons.1 hd with rfl | hd
        · exact hc
        · exact ih htl d hd

/-- A write keeps the canonical form. -/
theorem write_wf (m : Memory) (a : Nat) (b : Byte) (h : Memory.wf m = true) :
    Memory.wf (m.write a b) = true := by
  induction m with
  | nil => simp [Memory.write, Memory.wf, Memory.above]
  | cons c m ih =>
    simp only [Memory.wf, Bool.and_eq_true] at h
    unfold Memory.write
    split
    · rename_i hlt
      simp only [Memory.wf, Bool.and_eq_true]
      refine ⟨(above_iff _ _).2 ?_, h.1, h.2⟩
      intro d hd
      rcases List.mem_cons.1 hd with rfl | hd
      · exact hlt
      · exact Nat.lt_trans hlt ((above_iff _ _).1 h.1 d hd)
    · split
      · rename_i _ heq
        subst heq
        simpa [Memory.wf] using h
      · rename_i h1 h2
        simp only [Memory.wf, Bool.and_eq_true]
        exact ⟨above_write m c.1 a b (by omega) h.1, ih h.2⟩

/-- Reset's line buffer is canonical, and empty. -/
theorem reset_wf : Memory.wf State.reset.lineBuf = true := rfl

/-- One canonical memory for each map: canonical memories with the same lookups are equal. -/
theorem wf_ext : ∀ (m n : Memory), Memory.wf m = true → Memory.wf n = true →
    (∀ a, m.lookup a = n.lookup a) → m = n
  | [], [], _, _, _ => rfl
  | [], d :: n, _, _, h => by simpa [Memory.lookup] using h d.1
  | c :: m, [], _, _, h => by simpa [Memory.lookup] using h c.1
  | c :: m, d :: n, hm, hn, h => by
    simp only [Memory.wf, Bool.and_eq_true] at hm hn
    have none_of_above : ∀ (k a : Nat) (l : Memory), Memory.above k l = true → a ≤ k → l.lookup a = none := by
      intro k a l hl hak
      induction l with
      | nil => rfl
      | cons e l ih =>
        have he := (above_iff _ _).1 hl e (by simp)
        have hl' : Memory.above k l = true := (above_iff _ _).2 fun x hx => (above_iff _ _).1 hl x (by simp [hx])
        simp [Memory.lookup, show e.1 ≠ a by omega, ih hl']
    have hcd : c.1 = d.1 := by
      rcases Nat.lt_trichotomy c.1 d.1 with hlt | heq | hgt
      · have := h c.1
        simp [Memory.lookup, show d.1 ≠ c.1 by omega, none_of_above d.1 c.1 n hn.1 (by omega)] at this
      · exact heq
      · have := h d.1
        simp [Memory.lookup, show c.1 ≠ d.1 by omega, none_of_above c.1 d.1 m hm.1 (by omega)] at this
    have hv : c.2 = d.2 := by simpa [Memory.lookup, hcd] using h c.1
    have hmn : m = n := by
      refine wf_ext m n hm.2 hn.2 fun a => ?_
      by_cases ha : c.1 = a
      · rw [none_of_above c.1 a m hm.1 (by omega), none_of_above d.1 a n hn.1 (by omega)]
      · have := h a
        simpa [Memory.lookup, ha, show d.1 ≠ a by omega] using this
    rw [show c = d from Prod.ext hcd hv, hmn]

/-! ## Reading one byte -/

theorem lineByte_congr {s t : State} (hb : t.lineBuf = s.lineBuf) (hd : t.draw = s.draw) (a : Nat) :
    t.lineByte a = s.lineByte a := by
  simp [State.lineByte, hb, hd]

theorem lineByte_write_same {s t : State} {a : Nat} {b : Byte} (hb : t.lineBuf = s.lineBuf.write a b) :
    t.lineByte a = b := by
  simp [State.lineByte, hb, lookup_write_same]

theorem lineByte_write_other {s t : State} {a a' : Nat} {b : Byte} (hb : t.lineBuf = s.lineBuf.write a b)
    (hd : t.draw = s.draw) (h : a' ≠ a) : t.lineByte a' = s.lineByte a' := by
  simp [State.lineByte, hb, hd, lookup_write_other _ _ _ _ h]

/-! ## The line text -/

/-- `lineTextFrom` answers `L` just when `L` is the bytes from `k` to the first 0x00, found within the
fuel. -/
theorem lineTextFrom_some (s : State) (fuel k : Nat) (L : Text) :
    lineTextFrom s fuel k = some L ↔
      L.length < fuel ∧ s.lineByte (k + L.length) = 0x00 ∧
        ∀ j (h : j < L.length), s.lineByte (k + j) = L[j] ∧ L[j] ≠ 0x00 := by
  induction fuel generalizing k L with
  | zero => simp [lineTextFrom]
  | succ n ih =>
    unfold lineTextFrom
    split
    · rename_i h0
      constructor
      · intro h
        obtain rfl : [] = L := by simpa using h
        simp [h0]
      · rintro ⟨_, _, hall⟩
        cases L with
        | nil => rfl
        | cons b L =>
          have := hall 0 (by simp)
          simp [h0] at this
          exact absurd this.1.symm this.2
    · rename_i h0
      cases L with
      | nil =>
        constructor
        · intro h
          simp at h
        · rintro ⟨_, hz, _⟩
          exact absurd (by simpa using hz) h0
      | cons b L =>
        have step : (lineTextFrom s n (k + 1)).map (s.lineByte k :: ·) = some (b :: L) ↔
            s.lineByte k = b ∧ lineTextFrom s n (k + 1) = some L := by
          simp only [Option.map_eq_some_iff, List.cons.injEq]
          exact ⟨fun ⟨_, h, hb, hL⟩ => ⟨hb, hL ▸ h⟩, fun ⟨hb, h⟩ => ⟨L, h, hb, rfl⟩⟩
        rw [step, ih]
        constructor
        · rintro ⟨hb, hlen, hz, hall⟩
          refine ⟨by simpa using hlen, by simpa [Nat.add_assoc, Nat.add_comm 1] using hz, ?_⟩
          intro j hj
          cases j with
          | zero => exact ⟨by simpa using hb, by simpa [← hb] using h0⟩
          | succ j =>
            have := hall j (by simpa using hj)
            simpa [Nat.add_assoc, Nat.add_comm 1] using this
        · rintro ⟨hlen, hz, hall⟩
          refine ⟨(hall 0 (by simp)).1, by simpa using hlen,
            by simpa [Nat.add_assoc, Nat.add_comm 1] using hz, ?_⟩
          intro j hj
          have := hall (j + 1) (by simpa using hj)
          simpa [Nat.add_assoc, Nat.add_comm 1] using this

/-- `lineTextFrom` finds nothing just when every byte in reach is not 0x00. -/
theorem lineTextFrom_none (s : State) (fuel k : Nat) :
    lineTextFrom s fuel k = none ↔ ∀ j, j < fuel → s.lineByte (k + j) ≠ 0x00 := by
  induction fuel generalizing k with
  | zero => simp [lineTextFrom]
  | succ n ih =>
    unfold lineTextFrom
    split
    · rename_i h0
      simp only [reduceCtorEq, false_iff, not_forall]
      exact ⟨0, by omega, by simpa using h0⟩
    · rename_i h0
      rw [Option.map_eq_none_iff, ih]
      constructor
      · intro h j hj
        cases j with
        | zero => simpa using h0
        | succ j => simpa [Nat.add_assoc, Nat.add_comm 1] using h j (by omega)
      · intro h j hj
        simpa [Nat.add_assoc, Nat.add_comm 1] using h (j + 1) (by omega)

/-- The line text depends on the buffer, its unspecified content and the capacity only. -/
theorem lineText_congr {s t : State} (hb : t.lineBuf = s.lineBuf) (hd : t.draw = s.draw)
    (hc : t.cfg = s.cfg) : lineText t = lineText s := by
  have : ∀ fuel k, lineTextFrom t fuel k = lineTextFrom s fuel k := by
    intro fuel
    induction fuel with
    | zero => intro k; rfl
    | succ n ih =>
      intro k
      simp [lineTextFrom, ih, lineByte_congr hb hd]
  simp [lineText, this, hc]

end Sys2Proof.Machine
end

