-- ==== Sys2Proof/Laws/Ops.lean ====
section
/-! SUPPORT. One lemma for each shared operation, saying once everything it does, which later proofs cite
in place of unfolding it. -/

namespace Sys2Proof.Machine

/-! ## Outcomes -/

@[simp] theorem andThen_next (s : State) (k) : andThen (.next s) k = k s := rfl
@[simp] theorem andThen_fault (f : Fault) (k) : andThen (.fault f) k = .fault f := rfl
@[simp] theorem andThen_refused (r : Refusal) (k) : andThen (.refused r) k = .refused r := rfl
@[simp] theorem mapNext_next (g : State → State) (s : State) : mapNext g (.next s) = .next (g s) := rfl
@[simp] theorem mapNext_fault (g : State → State) (f : Fault) : mapNext g (.fault f) = .fault f := rfl
@[simp] theorem mapNext_refused (g : State → State) (r : Refusal) :
    mapNext g (.refused r) = .refused r := rfl

theorem andThen_eq_next {o k} {t : State} (h : andThen o k = .next t) :
    ∃ s, o = .next s ∧ k s = .next t := by
  cases o with
  | next s => exact ⟨s, rfl, h⟩
  | fault f => simp at h
  | refused r => simp at h

/-! ## Operands -/

theorem clampDuty_val (v : Int) : ((clampDuty v).val : Int) = max 0 (min 100 v) := by
  simp [clampDuty]

theorem clampDuty_val_le (v : Int) : (clampDuty v).val ≤ 100 := by
  have := (clampDuty v).isLt
  omega

theorem clampDuty_natCast (n : Nat) (h : n ≤ 100) : (clampDuty (n : Int)).val = n := by
  have := clampDuty_val (n : Int)
  omega

theorem freqInRange_iff (f : Int) : freqInRange f = true ↔ 1000 ≤ f ∧ f ≤ 50000 := by
  simp [freqInRange]

theorem periodFor_natCast (cfg : Config) (n : Nat) : periodFor cfg (n : Int) = cfg.clkHz / n - 1 := by
  simp only [periodFor]
  have h : (cfg.clkHz : Int) / (n : Int) = ((cfg.clkHz / n : Nat) : Int) := by simp
  omega

/-- The elapsed time as the number R198 gives. -/
theorem elapsed_toNat (s : State) :
    (elapsed s).toNat = (s.tick.toNat + 2 ^ 32 - s.lastStepTick.toNat) % 2 ^ 32 := by
  have h := s.lastStepTick.isLt
  simp only [elapsed, BitVec.toNat_sub]
  congr 1
  omega

theorem interval_le_iff (s : State) :
    rampIntervalMs ≤ elapsed s ↔
      20 ≤ (s.tick.toNat + 2 ^ 32 - s.lastStepTick.toNat) % 2 ^ 32 := by
  rw [BitVec.le_def, elapsed_toNat]
  rfl

/-! ## Exceptions and the facade -/

theorem raise_eq (e : CommandError) (s : State) : raise e s = { s with
    txLog := s.txLog ++ (errorText e ++ s.cfg.txEol),
    portLog := s.portLog ++ [.tx (errorText e ++ s.cfg.txEol)] } := rfl

theorem pwmStart_eq (a : Bool) (s : State) : pwmStart a s = { s with
    outEn := true, enabled := true,
    txLog := s.txLog ++ (if a then replyStart ++ s.cfg.txEol else []),
    portLog := s.portLog ++ .enable :: (if a then [.tx (replyStart ++ s.cfg.txEol)] else []) } := by
  cases a <;> simp [pwmStart, announceIf, backendEnable, emit, logPort, setEnabled, setOutEn]

theorem pwmStop_eq (a : Bool) (s : State) : pwmStop a s = { s with
    outEn := false, enabled := false,
    txLog := s.txLog ++ (if a then replyStop ++ s.cfg.txEol else []),
    portLog := s.portLog ++ .disable :: (if a then [.tx (replyStop ++ s.cfg.txEol)] else []) } := by
  cases a <;> simp [pwmStop, announceIf, backendDisable, emit, logPort, setEnabled, setOutEn]

theorem pwmSetDuty_eq (duty : Int) (s : State) : pwmSetDuty duty s = { s with
    dutyNow := BitVec.ofNat 7 (clampDuty duty).val,
    pulse1 := (clampDuty duty).val * s.period / 100,
    pulse2 := (clampDuty duty).val * s.period / 100,
    pulse3 := (clampDuty duty).val * s.period / 100,
    portLog := s.portLog ++ [.setPulse ((clampDuty duty).val * s.period / 100)
      ((clampDuty duty).val * s.period / 100) ((clampDuty duty).val * s.period / 100)] } := rfl

theorem dutyNow_toNat_of_clamp (duty : Int) :
    (BitVec.ofNat 7 (clampDuty duty).val).toNat = (clampDuty duty).val := by
  have := clampDuty_val_le duty
  simp only [BitVec.toNat_ofNat]
  omega

theorem setFrequencyAccepted_eq (f : Int) (s : State) : setFrequencyAccepted f s =
    let p := periodFor s.cfg f
    let d := (clampDuty s.dutyNow.toNat).val
    { s with
      freqHz := BitVec.ofInt 16 f, period := p, dutyNow := BitVec.ofNat 7 d,
      pulse1 := d * p / 100, pulse2 := d * p / 100, pulse3 := d * p / 100, outEn := true, enabled := true,
      txLog := s.txLog ++ ((if s.cfg.nestedReplies then replyStop ++ s.cfg.txEol else []) ++
        ((if s.cfg.nestedReplies then replyStart ++ s.cfg.txEol else []) ++
          (replyFreq f.toNat ++ s.cfg.txEol))),
      portLog := s.portLog ++ (.disable ::
        ((if s.cfg.nestedReplies then [.tx (replyStop ++ s.cfg.txEol)] else []) ++
          (.setPeriod p :: .setPulse (d * p / 100) (d * p / 100) (d * p / 100) :: .enable ::
            ((if s.cfg.nestedReplies then [.tx (replyStart ++ s.cfg.txEol)] else []) ++
              [.tx (replyFreq f.toNat ++ s.cfg.txEol)])))) } := by
  simp [setFrequencyAccepted, pwmStop_eq, pwmStart_eq, pwmSetDuty_eq, backendSetPeriod, emit, logPort]

theorem pwmSetFrequency_accepted {f : Int} (h1 : 1000 ≤ f) (h2 : f ≤ 50000) (s : State) :
    pwmSetFrequency f s = setFrequencyAccepted f s := by
  simp [pwmSetFrequency, freqInRange, h1, h2]

theorem pwmSetFrequency_rejected {f : Int} (h : f < 1000 ∨ 50000 < f) (s : State) :
    pwmSetFrequency f s = raise .freqRangeError s := by
  have : freqInRange f = false := by
    simp only [freqInRange, Bool.and_eq_false_iff, decide_eq_false_iff_not]
    omega
  simp [pwmSetFrequency, this]

/-! ## The framer -/

theorem receive_eq {s : State} (b : Byte) (op : State → State) (h : s.writeIndex < s.cfg.cap) :
    receive b op s = .next (rearm (op (landing b s))) := by
  simp [receive, h]

theorem receive_outside {s : State} (b : Byte) (op : State → State) (h : ¬ s.writeIndex < s.cfg.cap) :
    receive b op s = .fault .lineAddress := by
  simp [receive, h]

theorem receive_next {s t : State} {b : Byte} {op : State → State} (h : receive b op s = .next t) :
    s.writeIndex < s.cfg.cap ∧ t = rearm (op (landing b s)) := by
  unfold receive at h
  split at h
  · exact ⟨‹_›, by simpa using h.symm⟩
  · simp at h

theorem terminate_eq (b : Byte) (s : State) : rearm (terminateLine (landing b s)) = { s with
    lineBuf := (s.lineBuf.write s.writeIndex b).write s.writeIndex 0x00, lineReady := true,
    writeIndex := 0, rxArmed := true, portLog := s.portLog ++ [.arm 0] } := rfl

theorem advance_eq (b : Byte) (s : State) : rearm (advanceIndex (landing b s)) =
    let w := if s.writeIndex + 1 = s.cfg.cap then 0 else s.writeIndex + 1
    { s with lineBuf := s.lineBuf.write s.writeIndex b, writeIndex := w, rxArmed := true,
             portLog := s.portLog ++ [.arm w] } := rfl

/-- After a terminator the index it was handled at reads 0x00, every other byte as before. -/
theorem terminate_lineByte_same (b : Byte) (s : State) :
    (rearm (terminateLine (landing b s))).lineByte s.writeIndex = 0x00 := by
  simp [State.lineByte, terminate_eq, lookup_write_same]

theorem terminate_lineByte_other (b : Byte) (s : State) {a : Nat} (h : a ≠ s.writeIndex) :
    (rearm (terminateLine (landing b s))).lineByte a = s.lineByte a := by
  simp [State.lineByte, terminate_eq, lookup_write_other _ _ _ _ h]

/-- After a data byte the index it landed at reads it, every other byte as before. -/
theorem advance_lineByte_same (b : Byte) (s : State) :
    (rearm (advanceIndex (landing b s))).lineByte s.writeIndex = b := by
  simp [State.lineByte, advance_eq, lookup_write_same]

theorem advance_lineByte_other (b : Byte) (s : State) {a : Nat} (h : a ≠ s.writeIndex) :
    (rearm (advanceIndex (landing b s))).lineByte a = s.lineByte a := by
  simp [State.lineByte, advance_eq, lookup_write_other _ _ _ _ h]

theorem takeLine_idle {s : State} (h : s.lineReady = false) : takeLine s = .ok (none, s) := by
  simp [takeLine, h]

theorem takeLine_line {s : State} {L : Text} (h : s.lineReady = true) (hL : lineText s = some L) :
    takeLine s = .ok (some L, { s with lineReady := false }) := by
  simp [takeLine, h, hL, clearLineReady]

theorem takeLine_fault {s : State} (h : s.lineReady = true) (hL : lineText s = none) :
    takeLine s = .error .lineUnterminated := by
  simp [takeLine, h, hL]

/-- Everything TAKE can do. -/
theorem takeLine_cases (s : State) :
    (s.lineReady = false ∧ takeLine s = .ok (none, s)) ∨
    (∃ L, s.lineReady = true ∧ lineText s = some L ∧
      takeLine s = .ok (some L, { s with lineReady := false })) ∨
    (s.lineReady = true ∧ lineText s = none ∧ takeLine s = .error .lineUnterminated) := by
  cases hr : s.lineReady with
  | false => exact .inl ⟨rfl, takeLine_idle hr⟩
  | true =>
    cases hL : lineText s with
    | none => exact .inr (.inr ⟨rfl, rfl, takeLine_fault hr hL⟩)
    | some L => exact .inr (.inl ⟨L, rfl, rfl, takeLine_line hr hL⟩)

/-- Only the byte operations and TAKE can stop. -/
theorem exec_completes (i : Instr) (s : State) (hb : i.format ≠ .BYTE) (ht : i ≠ .take) :
    ∃ t, exec i s = .next t := by
  cases i <;> first | exact ⟨_, rfl⟩ | exact absurd rfl hb | exact absurd rfl ht

/-- Everything a byte operation can do, by the byte received. -/
theorem exec_decodeByte (b : Byte) (s : State) :
    exec (decodeByte b) s =
      if b = CR ∨ b = LF then receive b terminateLine s else receive b advanceIndex s := by
  unfold decodeByte
  by_cases h1 : b = CR
  · subst h1; simp [exec, execRxCr]
  · by_cases h2 : b = LF
    · subst h2; simp [h1, exec, execRxLf]
    · simp [h1, h2, exec, execRxData]

/-! ## Events -/

theorem rampCheck_idle {s : State} (h : ¬ rampIntervalMs ≤ elapsed s) : rampCheck s = .next s := by
  simp [rampCheck, h]

theorem rampCheck_fires {s : State} (h : rampIntervalMs ≤ elapsed s) :
    rampCheck s = exec (rampSelect s) s := by
  simp [rampCheck, h]

theorem exec_rampSelect (s : State) : exec (rampSelect s) s = .next (
    if s.dutyNow.toNat < s.dutyTarget.toNat then pwmSetDuty (s.dutyNow.toNat + 1) (markFiring s)
    else if s.dutyTarget.toNat < s.dutyNow.toNat then pwmSetDuty (s.dutyNow.toNat - 1) (markFiring s)
    else markFiring s) := by
  unfold rampSelect
  split
  · rfl
  · split <;> rfl

/-- Everything a ramp check can do: it always completes, and apart from the firing's sample of the tick
it is nothing or one `set_duty`. -/
theorem rampCheck_cases (s : State) :
    rampCheck s = .next s ∨
    (s.dutyNow.toNat < s.dutyTarget.toNat ∧
      rampCheck s = .next (pwmSetDuty (s.dutyNow.toNat + 1) (markFiring s))) ∨
    (s.dutyTarget.toNat < s.dutyNow.toNat ∧
      rampCheck s = .next (pwmSetDuty (s.dutyNow.toNat - 1) (markFiring s))) ∨
    (s.dutyNow.toNat = s.dutyTarget.toNat ∧ rampCheck s = .next (markFiring s)) := by
  by_cases h : rampIntervalMs ≤ elapsed s
  · rw [rampCheck_fires h, exec_rampSelect]
    by_cases h1 : s.dutyNow.toNat < s.dutyTarget.toNat
    · exact .inr (.inl ⟨h1, by simp [h1]⟩)
    · by_cases h2 : s.dutyTarget.toNat < s.dutyNow.toNat
      · exact .inr (.inr (.inl ⟨h2, by simp [h1, h2]⟩))
      · exact .inr (.inr (.inr ⟨by omega, by simp [h1, h2]⟩))
  · exact .inl (rampCheck_idle h)

/-- Everything a `Loop` event that completes has done: no line, or one line taken and its command run;
then the ramp check. -/
theorem loopEvent_next {s t : State} (h : loopEvent s = .next t) :
    (s.lineReady = false ∧ rampCheck s = .next t) ∨
    (∃ L u, s.lineReady = true ∧ lineText s = some L ∧
      exec (decodeLine L) { s with lineReady := false } = .next u ∧ rampCheck u = .next t) := by
  rcases takeLine_cases s with ⟨hr, he⟩ | ⟨L, hr, hL, he⟩ | ⟨hr, hL, he⟩
  · exact .inl ⟨hr, by simpa [loopEvent, he] using h⟩
  · simp only [loopEvent, he, process] at h
    obtain ⟨u, hu, ht⟩ := andThen_eq_next h
    exact .inr ⟨L, u, hr, hL, hu, ht⟩
  · simp [loopEvent, he] at h

/-- Everything a ramp check leaves alone. -/
theorem rampCheck_frame {s t : State} (h : rampCheck s = .next t) : t = { s with
    dutyNow := t.dutyNow, pulse1 := t.pulse1, pulse2 := t.pulse2, pulse3 := t.pulse3,
    lastStepTick := t.lastStepTick, portLog := t.portLog } := by
  rcases rampCheck_cases s with h' | ⟨-, h'⟩ | ⟨-, h'⟩ | ⟨-, h'⟩ <;> rw [h'] at h <;> injection h with h <;>
    subst h <;> rfl

/-- A step with an enabled event at the head of the schedule runs that event. -/
theorem step_enabled {s : State} {e : Event} {rest : List Event} (he : s.events = e :: rest)
    (hen : enabledEvent e s = true) : step s = runEvent e { s with events := rest } := by
  simp [step, stepEvent, he, hen]

theorem step_disabled {s : State} {e : Event} {rest : List Event} (he : s.events = e :: rest)
    (hen : enabledEvent e s = false) : step s = .next { s with events := rest } := by
  simp [step, stepEvent, he, hen]

theorem step_idle {s : State} (he : s.events = []) :
    step s = runEvent (if s.booted then .loop else .boot) s := by
  simp [step, stepEvent, he, mainLoopEvent]

/-- Everything a step can do: run an enabled event, or drop a disabled one. -/
theorem step_cases (s : State) :
    (∃ e rest, enabledEvent e s = true ∧
      (s.events = e :: rest ∨ (s.events = [] ∧ rest = [] ∧ e = if s.booted then .loop else .boot)) ∧
      step s = runEvent e { s with events := rest }) ∨
    (∃ e rest, s.events = e :: rest ∧ enabledEvent e s = false ∧
      step s = .next { s with events := rest }) := by
  cases he : s.events with
  | nil =>
    have hs : { s with events := [] } = s := by cases s; simp_all
    refine .inl ⟨if s.booted then .loop else .boot, [], ?_, .inr ⟨rfl, rfl, rfl⟩, ?_⟩
    · cases hb : s.booted <;> simp [enabledEvent, hb]
    · rw [hs, step_idle he]
  | cons e rest =>
    cases hen : enabledEvent e s with
    | true => exact .inl ⟨e, rest, hen, .inl rfl, step_enabled he hen⟩
    | false => exact .inr ⟨e, rest, rfl, hen, step_disabled he hen⟩

theorem bootEvent_eq (s : State) : bootEvent s =
    let p := s.cfg.clkHz / 20000 - 1
    let q := 50 * p / 100
    .next { s with
      period := p, pulse1 := q, pulse2 := q, pulse3 := q, dutyNow := 50, outEn := true, enabled := true,
      rxArmed := true, booted := true,
      txLog := s.txLog ++ ((if s.cfg.nestedReplies then replyStart ++ s.cfg.txEol else []) ++
        (replyBanner ++ s.cfg.txEol)),
      portLog := s.portLog ++ (.setPeriod p :: .setPulse q q q :: .enable ::
        ((if s.cfg.nestedReplies then [.tx (replyStart ++ s.cfg.txEol)] else []) ++
          [.tx (replyBanner ++ s.cfg.txEol), .arm 0])) } := by
  have hd : (clampDuty ((defaultDuty : Nat) : Int)).val = 50 := rfl
  have hp : periodFor s.cfg ((defaultFreq : Nat) : Int) = s.cfg.clkHz / 20000 - 1 :=
    periodFor_natCast s.cfg defaultFreq
  simp [bootEvent, pwmStart_eq, pwmSetDuty_eq, backendSetPeriod, rxArm, emit, logPort, setRxArmed, hd, hp]

/-! ## Runs -/

@[simp] theorem runFor_zero (s : State) : runFor 0 s = .next s := rfl

theorem runFor_succ (k : Nat) (s : State) : runFor (k + 1) s = andThen (step s) (runFor k) := rfl

/-- `runFor` is the host's run. -/
theorem runFor_eq_core (k : Nat) (s : State) : runFor k s = Sys2Proof.core.run k s := by
  induction k generalizing s with
  | zero => rfl
  | succ k ih =>
    rw [runFor_succ]
    cases h : step s with
    | next t =>
      have h' : Sys2Proof.core.step s = .next t := h
      simp only [Host.Core.run, h']
      exact ih t
    | fault f =>
      have h' : Sys2Proof.core.step s = .fault f := h
      simp only [Host.Core.run, h']
      rfl
    | refused r =>
      have h' : Sys2Proof.core.step s = .refused r := h
      simp only [Host.Core.run, h']
      rfl

/-- A run whose first step completes goes on from there. -/
theorem run_succ_of_next {s t : State} (k : Nat) (h : step s = .next t) :
    runFor (k + 1) s = runFor k t := by
  rw [runFor_succ, h, andThen_next]

/-- A run whose first `j` steps complete goes on from there. -/
theorem run_add_of_next {s t : State} (j k : Nat) (h : runFor j s = .next t) :
    runFor (j + k) s = runFor k t := by
  induction j generalizing s with
  | zero =>
    obtain rfl : s = t := by simpa using h
    rw [Nat.zero_add]
  | succ j ih =>
    rw [runFor_succ] at h
    obtain ⟨u, hu, ht⟩ := andThen_eq_next h
    rw [Nat.succ_add, run_succ_of_next _ hu, ih ht]

end Sys2Proof.Machine
end

