-- ==== Sys2Proof/Laws/Exec.lean ====
section
/-! SUPPORT. What every instruction and every event does to the logs and leaves alone. -/

namespace Sys2Proof.Machine

/-- The two cases of set_frequency, as one disjunction. -/
theorem pwmSetFrequency_cases (f : Int) (s : State) :
    (1000 ≤ f ∧ f ≤ 50000 ∧ pwmSetFrequency f s = setFrequencyAccepted f s) ∨
    ((f < 1000 ∨ 50000 < f) ∧ pwmSetFrequency f s = raise .freqRangeError s) := by
  by_cases h : 1000 ≤ f ∧ f ≤ 50000
  · exact .inl ⟨h.1, h.2, pwmSetFrequency_accepted h.1 h.2 s⟩
  · have h' : f < 1000 ∨ 50000 < f := by omega
    exact .inr ⟨h', pwmSetFrequency_rejected h' s⟩

/-- What a set_frequency leaves alone. -/
theorem pwmSetFrequency_frame (f : Int) (s : State) : ∃ (fr : BitVec 16) (p q : Nat) (d : BitVec 7) (q2 q3 : Nat)
    (o e : Bool) (x : Text) (l : List PortAction), pwmSetFrequency f s = { s with
      freqHz := fr, period := p, dutyNow := d, pulse1 := q, pulse2 := q2, pulse3 := q3, outEn := o,
      enabled := e, txLog := x, portLog := l } := by
  rcases pwmSetFrequency_cases f s with ⟨-, -, he⟩ | ⟨-, he⟩ <;> rw [he]
  · rw [setFrequencyAccepted_eq]
    exact ⟨_, _, _, _, _, _, _, _, _, _, rfl⟩
  · exact ⟨_, _, _, _, _, _, _, _, _, _, rfl⟩

/-- Everything an instruction other than a byte operation or TAKE leaves alone: the receiver's state but
RX_ARMED (REARM), the clock, the configuration and the schedule. -/
theorem exec_receiver_frame {i : Instr} {s t : State} (hb : i.format ≠ .BYTE) (ht : i ≠ .take)
    (h : exec i s = .next t) : t.lineBuf = s.lineBuf ∧ t.writeIndex = s.writeIndex ∧
      t.lineReady = s.lineReady ∧ (i ≠ .rearm → t.rxArmed = s.rxArmed) := by
  have hf : ∀ f, (pwmSetFrequency f s).lineBuf = s.lineBuf ∧ (pwmSetFrequency f s).writeIndex = s.writeIndex ∧
      (pwmSetFrequency f s).lineReady = s.lineReady ∧ (pwmSetFrequency f s).rxArmed = s.rxArmed := by
    intro f
    obtain ⟨_, _, _, _, _, _, _, _, _, _, he⟩ := pwmSetFrequency_frame f s
    rw [he]
    exact ⟨rfl, rfl, rfl, rfl⟩
  have hs : ∀ a, (pwmStart a s).lineBuf = s.lineBuf ∧ (pwmStart a s).writeIndex = s.writeIndex ∧
      (pwmStart a s).lineReady = s.lineReady ∧ (pwmStart a s).rxArmed = s.rxArmed := by
    intro a
    rw [pwmStart_eq]
    exact ⟨rfl, rfl, rfl, rfl⟩
  have hp : ∀ a, (pwmStop a s).lineBuf = s.lineBuf ∧ (pwmStop a s).writeIndex = s.writeIndex ∧
      (pwmStop a s).lineReady = s.lineReady ∧ (pwmStop a s).rxArmed = s.rxArmed := by
    intro a
    rw [pwmStop_eq]
    exact ⟨rfl, rfl, rfl, rfl⟩
  have fin : ∀ {u : State}, u = t → (u.lineBuf = s.lineBuf ∧ u.writeIndex = s.writeIndex ∧
      u.lineReady = s.lineReady ∧ u.rxArmed = s.rxArmed) → t.lineBuf = s.lineBuf ∧
      t.writeIndex = s.writeIndex ∧ t.lineReady = s.lineReady ∧ (i ≠ .rearm → t.rxArmed = s.rxArmed) := by
    rintro _ rfl ⟨h1, h2, h3, h4⟩
    exact ⟨h1, h2, h3, fun _ => h4⟩
  cases i with
  | set v => exact fin (Host.Outcome.next.inj h) ⟨rfl, rfl, rfl, rfl⟩
  | freq f => exact fin (Host.Outcome.next.inj h) (hf f)
  | start => exact fin (Host.Outcome.next.inj h) (hs true)
  | stop => exact fin (Host.Outcome.next.inj h) (hp true)
  | status => exact fin (Host.Outcome.next.inj h) ⟨rfl, rfl, rfl, rfl⟩
  | unknown => exact fin (Host.Outcome.next.inj h) ⟨rfl, rfl, rfl, rfl⟩
  | rxCr => exact absurd rfl hb
  | rxLf => exact absurd rfl hb
  | rxData b => exact absurd rfl hb
  | rampUp => exact fin (Host.Outcome.next.inj h) ⟨rfl, rfl, rfl, rfl⟩
  | rampDown => exact fin (Host.Outcome.next.inj h) ⟨rfl, rfl, rfl, rfl⟩
  | rampHold => exact fin (Host.Outcome.next.inj h) ⟨rfl, rfl, rfl, rfl⟩
  | rearm =>
    have h' := Host.Outcome.next.inj h
    subst h'
    exact ⟨rfl, rfl, rfl, fun hr => absurd rfl hr⟩
  | take => exact absurd rfl ht
  | facadeStart a => exact fin (Host.Outcome.next.inj h) (hs a)
  | facadeStop a => exact fin (Host.Outcome.next.inj h) (hp a)
  | setDuty d => exact fin (Host.Outcome.next.inj h) ⟨rfl, rfl, rfl, rfl⟩
  | setTarget d => exact fin (Host.Outcome.next.inj h) ⟨rfl, rfl, rfl, rfl⟩
  | setFrequencyAccept f => exact fin (Host.Outcome.next.inj h) (hf f)
  | setFrequencyReject f => exact fin (Host.Outcome.next.inj h) (hf f)

/-- A line decodes to a command, whatever it holds. -/
theorem decodeLine_isCommand (L : Text) : (decodeLine L).isCommand = true := by
  unfold decodeLine
  split
  · rfl
  · split
    · rfl
    · unfold decodeExact
      repeat' split
      all_goals rfl

theorem isCommand_not_byte {i : Instr} (h : i.isCommand = true) : i.format ≠ .BYTE ∧ i ≠ .take ∧ i ≠ .rearm := by
  cases i <;> simp_all [Instr.isCommand, Instr.format]

/-- A port log that grew by `acts`, the transmit log by what `acts` transmitted, no banner among it, and
nothing outside the block's own state moved. -/
structure Grew (s t : State) (acts : List PortAction) : Prop where
  port : t.portLog = s.portLog ++ acts
  tx : t.txLog = s.txLog ++ (acts.map PortAction.txBytes).flatten
  noBanner : .tx (replyBanner ++ s.cfg.txEol) ∉ acts
  cfg : t.cfg = s.cfg
  draw : t.draw = s.draw
  booted : t.booted = s.booted
  events : t.events = s.events
  tick : t.tick = s.tick

theorem Grew.refl (s : State) : Grew s s [] := by
  constructor <;> simp

theorem Grew.trans {s t u : State} {a b : List PortAction} (h : Grew s t a) (h' : Grew t u b) :
    Grew s u (a ++ b) where
  port := by rw [h'.port, h.port, List.append_assoc]
  tx := by rw [h'.tx, h.tx]; simp
  noBanner := by
    have h2 := h'.noBanner
    rw [h.cfg] at h2
    simp [h.noBanner, h2]
  cfg := h'.cfg.trans h.cfg
  draw := h'.draw.trans h.draw
  booted := h'.booted.trans h.booted
  events := h'.events.trans h.events
  tick := h'.tick.trans h.tick

/-- Texts that do not begin as the banner does are not the banner. -/
theorem reply_ne_banner {x : Text} (h : x ≠ replyBanner) (eol : Text) : x ++ eol ≠ replyBanner ++ eol :=
  fun he => h (List.append_cancel_right he)

theorem emit_grew {x : Text} (h : x ≠ replyBanner) (s : State) :
    Grew s (emit x s) [.tx (x ++ s.cfg.txEol)] := by
  constructor <;> simp [PortAction.txBytes]
  exact fun he => h he.symm

theorem replyTarget_ne (n : Nat) : replyTarget n ≠ replyBanner := by simp [replyTarget, replyBanner]
theorem replyFreq_ne (n : Nat) : replyFreq n ≠ replyBanner := by simp [replyFreq, replyBanner]
theorem replyDuty_ne (m n : Nat) : replyDuty m n ≠ replyBanner := by simp [replyDuty, replyBanner]
theorem replyFreqIs_ne (n : Nat) : replyFreqIs n ≠ replyBanner := by simp [replyFreqIs, replyBanner]
theorem replyState_ne (b : Bool) : replyState b ≠ replyBanner := by simp [replyState, replyBanner]
theorem replyStart_ne : replyStart ≠ replyBanner := by decide
theorem replyStop_ne : replyStop ≠ replyBanner := by decide
theorem errorText_ne (e : CommandError) : errorText e ≠ replyBanner := by cases e <;> decide

theorem pwmStart_grew (a : Bool) (s : State) :
    Grew s (pwmStart a s) (.enable :: if a then [.tx (replyStart ++ s.cfg.txEol)] else []) := by
  have h := reply_ne_banner replyStart_ne s.cfg.txEol
  cases a <;> constructor <;> simp [pwmStart_eq, PortAction.txBytes]
  exact fun he => replyStart_ne he.symm

theorem pwmStop_grew (a : Bool) (s : State) :
    Grew s (pwmStop a s) (.disable :: if a then [.tx (replyStop ++ s.cfg.txEol)] else []) := by
  cases a <;> constructor <;> simp [pwmStop_eq, PortAction.txBytes]
  exact fun he => replyStop_ne he.symm

theorem pwmSetDuty_grew (duty : Int) (s : State) : ∃ q, Grew s (pwmSetDuty duty s) [.setPulse q q q] := by
  refine ⟨(clampDuty duty).val * s.period / 100, ?_⟩
  constructor <;> simp [pwmSetDuty_eq, PortAction.txBytes]

/-- What a set_frequency adds to the logs: its backend calls in their order, and its lines. -/
theorem pwmSetFrequency_grew (f : Int) (s : State) :
    ∃ acts, Grew s (pwmSetFrequency f s) acts ∧
      ((1000 ≤ f ∧ f ≤ 50000 ∧ ∃ p q,
          acts = .disable :: (if s.cfg.nestedReplies then [.tx (replyStop ++ s.cfg.txEol)] else []) ++
            (.setPeriod p :: .setPulse q q q :: .enable ::
              (if s.cfg.nestedReplies then [.tx (replyStart ++ s.cfg.txEol)] else []) ++
              [.tx (replyFreq f.toNat ++ s.cfg.txEol)])) ∨
       ((f < 1000 ∨ 50000 < f) ∧ acts = [.tx (replyFreqErr ++ s.cfg.txEol)])) := by
  have h1 : replyBanner ≠ replyStop := replyStop_ne.symm
  have h2 : replyBanner ≠ replyStart := replyStart_ne.symm
  have h3 : replyBanner ≠ replyFreq f.toNat := (replyFreq_ne f.toNat).symm
  rcases pwmSetFrequency_cases f s with ⟨ha, hb, he⟩ | ⟨hr, he⟩
  · refine ⟨_, ?_, .inl ⟨ha, hb, periodFor s.cfg f,
      (clampDuty s.dutyNow.toNat).val * periodFor s.cfg f / 100, rfl⟩⟩
    rw [he, setFrequencyAccepted_eq]
    cases hn : s.cfg.nestedReplies <;> constructor <;> simp [PortAction.txBytes]
    · exact h3
    · exact ⟨h1, h2, h3⟩
  · exact ⟨_, he ▸ emit_grew (errorText_ne .freqRangeError) s, .inr ⟨hr, rfl⟩⟩

/-- Everything an instruction can add to the logs, and what it never moves. -/
theorem exec_grew {i : Instr} {s t : State} (h : exec i s = .next t) : ∃ acts, Grew s t acts := by
  have hrx : ∀ {b : Byte} {op : State → State}, (op = terminateLine ∨ op = advanceIndex) →
      receive b op s = .next t → ∃ acts, Grew s t acts := by
    intro b op hop hr
    obtain ⟨-, rfl⟩ := receive_next hr
    rcases hop with rfl | rfl
    · refine ⟨[.arm 0], ?_⟩
      rw [terminate_eq]
      constructor <;> simp [PortAction.txBytes]
    · refine ⟨[.arm (if s.writeIndex + 1 = s.cfg.cap then 0 else s.writeIndex + 1)], ?_⟩
      rw [advance_eq]
      constructor <;> simp [PortAction.txBytes]
  cases i with
  | set v =>
    obtain rfl : _ = t := by simpa [exec, execSet] using h
    have := emit_grew (replyTarget_ne (clampDuty v).val) (pwmSetTarget (clampDuty v) s)
    exact ⟨_, { this with
      noBanner := this.noBanner }⟩
  | freq f =>
    obtain rfl : _ = t := by simpa [exec, execFreq] using h
    exact (pwmSetFrequency_grew f s).imp fun _ h => h.1
  | start =>
    obtain rfl : _ = t := by simpa [exec, execStart] using h
    exact ⟨_, pwmStart_grew true s⟩
  | stop =>
    obtain rfl : _ = t := by simpa [exec, execStop] using h
    exact ⟨_, pwmStop_grew true s⟩
  | status =>
    obtain rfl : _ = t := by simpa [exec, execStatus] using h
    exact ⟨_, ((emit_grew (replyDuty_ne _ _) s).trans (emit_grew (replyFreqIs_ne _) _)).trans
      (emit_grew (replyState_ne _) _)⟩
  | unknown =>
    obtain rfl : _ = t := by simpa [exec, execUnknown] using h
    exact ⟨_, emit_grew (errorText_ne .cmdError) s⟩
  | rxCr => exact hrx (.inl rfl) h
  | rxLf => exact hrx (.inl rfl) h
  | rxData b => exact hrx (.inr rfl) h
  | rampUp =>
    obtain rfl : _ = t := by simpa [exec, execRampUp] using h
    obtain ⟨q, hq⟩ := pwmSetDuty_grew (s.dutyNow.toNat + 1) (markFiring s)
    exact ⟨_, { hq with noBanner := hq.noBanner }⟩
  | rampDown =>
    obtain rfl : _ = t := by simpa [exec, execRampDown] using h
    obtain ⟨q, hq⟩ := pwmSetDuty_grew (s.dutyNow.toNat - 1) (markFiring s)
    exact ⟨_, { hq with noBanner := hq.noBanner }⟩
  | rampHold =>
    obtain rfl : _ = t := by simpa [exec, execRampHold] using h
    exact ⟨[], by constructor <;> simp⟩
  | rearm =>
    obtain rfl : _ = t := by simpa [exec, execRearm] using h
    exact ⟨[.arm s.writeIndex], by constructor <;> simp [rearm, rxArm, PortAction.txBytes]⟩
  | take =>
    simp only [exec, execTake] at h
    rcases takeLine_cases s with ⟨-, he⟩ | ⟨L, -, -, he⟩ | ⟨-, -, he⟩
    · obtain rfl : s = t := by simpa [he] using h
      exact ⟨[], Grew.refl s⟩
    · obtain rfl : _ = t := by simpa [he] using h
      exact ⟨[], by constructor <;> simp⟩
    · simp [he] at h
  | facadeStart a =>
    obtain rfl : _ = t := by simpa [exec, execFacadeStart] using h
    exact ⟨_, pwmStart_grew a s⟩
  | facadeStop a =>
    obtain rfl : _ = t := by simpa [exec, execFacadeStop] using h
    exact ⟨_, pwmStop_grew a s⟩
  | setDuty d =>
    obtain rfl : _ = t := by simpa [exec, execSetDuty] using h
    obtain ⟨q, hq⟩ := pwmSetDuty_grew d s
    exact ⟨_, hq⟩
  | setTarget d =>
    obtain rfl : _ = t := by simpa [exec, execSetTarget] using h
    exact ⟨[], by constructor <;> simp [pwmSetTarget]⟩
  | setFrequencyAccept f =>
    obtain rfl : _ = t := by simpa [exec, execSetFrequencyAccept] using h
    exact (pwmSetFrequency_grew f s).imp fun _ h => h.1
  | setFrequencyReject f =>
    obtain rfl : _ = t := by simpa [exec, execSetFrequencyReject] using h
    exact (pwmSetFrequency_grew f s).imp fun _ h => h.1

/-- What a ramp check adds to the logs: nothing, or one backend call, and no line. -/
theorem rampCheck_grew {s t : State} (h : rampCheck s = .next t) : ∃ acts, Grew s t acts := by
  unfold rampCheck at h
  split at h
  · exact exec_grew h
  · obtain rfl : s = t := by simpa using h
    exact ⟨[], Grew.refl s⟩

/-- What a `Loop` adds to the logs. -/
theorem loopEvent_grew {s t : State} (h : loopEvent s = .next t) : ∃ acts, Grew s t acts := by
  rcases loopEvent_next h with ⟨-, hr⟩ | ⟨L, u, -, -, he, hr⟩
  · exact rampCheck_grew hr
  · obtain ⟨a, ha⟩ := exec_grew he
    obtain ⟨b, hb⟩ := rampCheck_grew hr
    have h0 : Grew s { s with lineReady := false } [] := by constructor <;> simp
    exact ⟨_, (h0.trans ha).trans hb⟩

end Sys2Proof.Machine
end

