-- ==== Sys2Proof/Laws/Framing.lean ====
section
/-! SUPPORT. The framer over a sequence of bytes: what a run of `Rx` events leaves in LINE_BUF. -/

namespace Sys2Proof.Machine

/-- Nothing but the framer's own state and the port log differs. -/
def OnlyFramerMoved (s t : State) : Prop :=
  t = { s with lineBuf := t.lineBuf, writeIndex := t.writeIndex, lineReady := t.lineReady,
               rxArmed := t.rxArmed, portLog := t.portLog, events := t.events }

theorem OnlyFramerMoved.trans {s t u : State} (h : OnlyFramerMoved s t) (h' : OnlyFramerMoved t u) :
    OnlyFramerMoved s u := by
  unfold OnlyFramerMoved at *
  rw [h', h]

/-- One data byte of the schedule, as a step. -/
theorem step_data {s : State} {b : Byte} {rest : List Event} (hb : s.booted = true)
    (ha : s.rxArmed = true) (hw : s.writeIndex < s.cfg.cap) (h1 : b ≠ 0x0D) (h2 : b ≠ 0x0A)
    (he : s.events = .rx b :: rest) :
    ∃ t, step s = .next t ∧ t.events = rest ∧ t.rxArmed = true ∧ t.lineReady = s.lineReady ∧
      t.writeIndex = (if s.writeIndex + 1 = s.cfg.cap then 0 else s.writeIndex + 1) ∧
      t.lineByte s.writeIndex = b ∧ (∀ a, a ≠ s.writeIndex → t.lineByte a = s.lineByte a) ∧
      OnlyFramerMoved s t := by
  refine ⟨rearm (advanceIndex (landing b { s with events := rest })), ?_, rfl, rfl, rfl, rfl,
    advance_lineByte_same b { s with events := rest },
    fun a ha => advance_lineByte_other b { s with events := rest } ha, rfl⟩
  rw [step_enabled he (by simp [enabledEvent, hb, ha])]
  simp only [runEvent, rxEvent]
  rw [exec_decodeByte, if_neg (by simp only [CR, LF]; tauto)]
  exact receive_eq (s := { s with events := rest }) b advanceIndex hw

/-- One terminator of the schedule, as a step. -/
theorem step_terminator {s : State} {e : Byte} {rest : List Event} (hb : s.booted = true)
    (ha : s.rxArmed = true) (hw : s.writeIndex < s.cfg.cap) (h : e = 0x0D ∨ e = 0x0A)
    (he : s.events = .rx e :: rest) :
    ∃ t, step s = .next t ∧ t.events = rest ∧ t.rxArmed = true ∧ t.lineReady = true ∧
      t.writeIndex = 0 ∧ t.lineByte s.writeIndex = 0x00 ∧
      (∀ a, a ≠ s.writeIndex → t.lineByte a = s.lineByte a) ∧ OnlyFramerMoved s t := by
  refine ⟨rearm (terminateLine (landing e { s with events := rest })), ?_, rfl, rfl, rfl, rfl,
    terminate_lineByte_same e { s with events := rest },
    fun a ha => terminate_lineByte_other e { s with events := rest } ha, rfl⟩
  rw [step_enabled he (by simp [enabledEvent, hb, ha])]
  simp only [runEvent, rxEvent]
  rw [exec_decodeByte, if_pos (by simpa only [CR, LF] using h)]
  exact receive_eq (s := { s with events := rest }) e terminateLine hw

/-- The index after one more byte, and the number of wraps when there is none. -/
theorem next_index {n C : Nat} (hC : 0 < C) :
    (if n % C + 1 = C then 0 else n % C + 1) = (n + 1) % C ∧
    (n % C + 1 ≠ C → (n + 1) / C = n / C) := by
  have hlt := Nat.mod_lt n hC
  have hn := Nat.div_add_mod n C
  have hsum : n + 1 = (n % C + 1) + C * (n / C) := by omega
  constructor
  · split
    · rename_i h
      have : n + 1 = C * (n / C + 1) := by rw [Nat.mul_add, Nat.mul_one]; omega
      rw [this, Nat.mul_mod_right]
    · rename_i h
      have hlt' : n % C + 1 < C := by omega
      have hm := congrArg (· % C) hsum
      simp only [Nat.add_mul_mod_self_left] at hm
      rw [hm, Nat.mod_eq_of_lt hlt']
  · intro h
    have hlt' : n % C + 1 < C := by omega
    have hd := congrArg (· / C) hsum
    simp only [Nat.add_mul_div_left _ _ hC, Nat.div_eq_of_lt hlt', Nat.zero_add] at hd
    exact hd

/-- `pre` has been received since the line began: the index is where it ends, and below the index lie
its bytes since the last wrap. -/
structure Holds (s : State) (pre : Text) : Prop where
  index : s.writeIndex = pre.length % s.cfg.cap
  bytes : ∀ j, j < pre.length % s.cfg.cap →
    pre[pre.length / s.cfg.cap * s.cfg.cap + j]? = some (s.lineByte j)

theorem Holds.nil {s : State} (h : s.writeIndex = 0) : Holds s [] := by
  constructor <;> simp [h]

theorem Holds.snoc {s t : State} {pre : Text} {b : Byte} (h : Holds s pre) (hc : t.cfg = s.cfg)
    (hw : t.writeIndex = (if s.writeIndex + 1 = s.cfg.cap then 0 else s.writeIndex + 1))
    (hb : t.lineByte s.writeIndex = b)
    (ho : ∀ a, a ≠ s.writeIndex → t.lineByte a = s.lineByte a) : Holds t (pre ++ [b]) := by
  have hC : 0 < s.cfg.cap := s.cfg.cap_pos
  obtain ⟨h1, h2⟩ := next_index (n := pre.length) hC
  rw [h.index, h1] at hw
  constructor
  · simp [hc, hw]
  · intro j hj
    rw [List.length_append, List.length_singleton, hc] at hj ⊢
    by_cases hwrap : pre.length % s.cfg.cap + 1 = s.cfg.cap
    · rw [← h1, if_pos hwrap] at hj
      omega
    · rw [← h1, if_neg hwrap] at hj
      rw [h2 hwrap]
      have hn := Nat.div_add_mod pre.length s.cfg.cap
      rw [Nat.mul_comm] at hn
      by_cases hjw : j = pre.length % s.cfg.cap
      · rw [hjw, hn, ← h.index, hb]
        simp
      · rw [ho j (by rw [h.index]; exact hjw), ← h.bytes j (by omega), List.getElem?_append_left]
        omega

/-- A run over data bytes: it completes, the bytes lie where the index put them, and only the framer
moved. -/
theorem run_data (D : Text) (s : State) (pre : Text) (rest : List Event) (hb : s.booted = true)
    (ha : s.rxArmed = true) (hp : Holds s pre) (hD : ∀ b ∈ D, b ≠ 0x0D ∧ b ≠ 0x0A)
    (he : s.events = receiveAll D ++ rest) :
    ∃ t, runFor D.length s = .next t ∧ t.events = rest ∧ t.rxArmed = true ∧
      t.lineReady = s.lineReady ∧ Holds t (pre ++ D) ∧ OnlyFramerMoved s t := by
  induction D generalizing s pre with
  | nil => exact ⟨s, rfl, by simpa [receiveAll] using he, ha, rfl, by simpa using hp, rfl⟩
  | cons b D ih =>
    have hw : s.writeIndex < s.cfg.cap := hp.index ▸ Nat.mod_lt _ s.cfg.cap_pos
    obtain ⟨h1, h2⟩ := hD b (by simp)
    obtain ⟨u, hs, hue, hua, hur, huw, hub, huo, hum⟩ :=
      step_data (rest := receiveAll D ++ rest) hb ha hw h1 h2 (by simpa [receiveAll] using he)
    have hcfg : u.cfg = s.cfg := by rw [hum]
    have hbt : u.booted = true := by rw [hum]; exact hb
    obtain ⟨t, hr, hte, hta, htr, hth, htm⟩ :=
      ih u (pre ++ [b]) hbt hua (hp.snoc hcfg huw hub huo) (fun c hc => hD c (by simp [hc])) hue
    refine ⟨t, ?_, hte, hta, htr.trans hur, by simpa using hth, hum.trans htm⟩
    rw [List.length_cons, run_succ_of_next _ hs, hr]

/-- The text of a terminated line: with no 0x00 among the bytes, those since the last wrap. -/
theorem lineText_of_holds {s t : State} {pre : Text} (h : Holds s pre) (hc : t.cfg = s.cfg)
    (hz : t.lineByte s.writeIndex = 0x00) (ho : ∀ a, a ≠ s.writeIndex → t.lineByte a = s.lineByte a)
    (hp : ∀ b ∈ pre, b ≠ 0x00) :
    lineText t = some (pre.drop (pre.length / s.cfg.cap * s.cfg.cap)) := by
  have hC : 0 < s.cfg.cap := s.cfg.cap_pos
  have hn := Nat.div_add_mod pre.length s.cfg.cap
  rw [Nat.mul_comm] at hn
  have hlen : (pre.drop (pre.length / s.cfg.cap * s.cfg.cap)).length = pre.length % s.cfg.cap := by
    rw [List.length_drop]; omega
  rw [lineText, lineTextFrom_some, hc]
  refine ⟨by rw [hlen]; exact Nat.mod_lt _ hC, by rw [hlen, Nat.zero_add, ← h.index]; exact hz, ?_⟩
  intro j hj
  rw [hlen] at hj
  have hb := h.bytes j hj
  have hget : (pre.drop (pre.length / s.cfg.cap * s.cfg.cap))[j] = s.lineByte j := by
    apply Option.some.inj
    rw [← hb, ← List.getElem?_eq_getElem, List.getElem?_drop]
  refine ⟨?_, ?_⟩
  · rw [hget, Nat.zero_add, ho j (by rw [h.index]; omega)]
  · exact hp _ (List.mem_of_mem_drop (List.getElem_mem _))

end Sys2Proof.Machine
end

