-- ==== Sys2Proof/Laws/PerInstr.lean ====
section
/-! SUPPORT. A statement about every instruction as syntax, one lemma a constructor: the line an instruction
is encoded as is a line text, so it can be sent and framed (30_encoding.md R91). -/

namespace Sys2Proof.Laws.CodeIsLineText

/-- The line of `i`, if it has one, holds no 0x00 and no terminator. -/
def Statement (i : Instr) : Prop :=
  i.wf = true → ∀ L, encode i = some (.line L) → isLineText L = true

theorem set (v : Int) : Statement (.set v) := by
  intro _ L h
  obtain rfl : kwSet ++ decInt v = L := by simpa [encode] using h
  rw [isLineText_append, isLineText_decInt]
  rfl

theorem freq (f : Int) : Statement (.freq f) := by
  intro _ L h
  obtain rfl : kwFreq ++ decInt f = L := by simpa [encode] using h
  rw [isLineText_append, isLineText_decInt]
  rfl

theorem start : Statement .start := by
  intro _ L h
  obtain rfl : kwStart = L := by simpa [encode] using h
  rfl

theorem stop : Statement .stop := by
  intro _ L h
  obtain rfl : kwStop = L := by simpa [encode] using h
  rfl

theorem status : Statement .status := by
  intro _ L h
  obtain rfl : kwStatus = L := by simpa [encode] using h
  rfl

theorem unknown : Statement .unknown := by
  intro _ L h
  obtain rfl : [] = L := by simpa [encode] using h
  rfl

theorem rxCr : Statement .rxCr := by
  intro _ L h
  simp [encode] at h

theorem rxLf : Statement .rxLf := by
  intro _ L h
  simp [encode] at h

theorem rxData (b : Byte) : Statement (.rxData b) := by
  intro _ L h
  simp [encode] at h

theorem rampUp : Statement .rampUp := by
  intro _ L h
  simp [encode] at h

theorem rampDown : Statement .rampDown := by
  intro _ L h
  simp [encode] at h

theorem rampHold : Statement .rampHold := by
  intro _ L h
  simp [encode] at h

theorem rearm : Statement .rearm := by
  intro _ L h
  simp [encode] at h

theorem take : Statement .take := by
  intro _ L h
  simp [encode] at h

theorem facadeStart (announce : Bool) : Statement (.facadeStart announce) := by
  intro _ L h
  simp [encode] at h

theorem facadeStop (announce : Bool) : Statement (.facadeStop announce) := by
  intro _ L h
  simp [encode] at h

theorem setDuty (duty : Int) : Statement (.setDuty duty) := by
  intro _ L h
  simp [encode] at h

theorem setTarget (d : Fin 101) : Statement (.setTarget d) := by
  intro _ L h
  simp [encode] at h

theorem setFrequencyAccept (f : Int) : Statement (.setFrequencyAccept f) := by
  intro _ L h
  simp [encode] at h

theorem setFrequencyReject (f : Int) : Statement (.setFrequencyReject f) := by
  intro _ L h
  simp [encode] at h

end Sys2Proof.Laws.CodeIsLineText
end

