-- ==== Sys2Proof/Laws/Premises.lean ====
section
/-! SUPPORT. The premises LOOP_FAST and NO_OVERRUN event by event, the events of a run step by step, and
what an instruction does to logs that already hold something. -/

namespace Sys2Proof.Machine

/-! ## LOOP_FAST: `LoopFast (.tick :: es)` says that a tick still waits for its poll -/

theorem LoopFast.nil : LoopFast [] := by
  intro before between after h
  simp at h

theorem LoopFast.tail {e : Event} {es : List Event} (h : LoopFast (e :: es)) : LoopFast es :=
  fun before between after he => h (e :: before) between after (by rw [he]; rfl)

theorem LoopFast.not_tick_tick {es : List Event} : ¬ LoopFast (.tick :: .tick :: es) := by
  intro h
  simpa using h [] [] es rfl

/-- A poll ends the wait of the tick before it. -/
theorem loopFast_tick_loop {es : List Event} : LoopFast (.tick :: .loop :: es) ↔ LoopFast es := by
  refine ⟨fun h => h.tail.tail, fun h before between after he => ?_⟩
  match before, between with
  | [], [] => simp at he
  | [], e :: m =>
    simp only [List.nil_append, List.cons_append, List.cons.injEq, true_and] at he
    simp [← he.1]
  | [e], m => simp at he
  | e :: e' :: before, m =>
    simp only [List.cons_append, List.cons.injEq] at he
    exact h before m after he.2.2

/-- Any other event leaves a waiting tick waiting. -/
theorem LoopFast.drop_other {e : Event} {es : List Event} (hl : e ≠ .loop)
    (h : LoopFast (.tick :: e :: es)) : LoopFast (.tick :: es) := by
  intro before between after he
  match before with
  | [] =>
    simp only [List.nil_append, List.cons.injEq, true_and] at he
    have := h [] (e :: between) after (by rw [he]; rfl)
    simpa [hl.symm] using this
  | e' :: before =>
    simp only [List.cons_append, List.cons.injEq] at he
    exact h.tail.tail before between after he.2

/-! ## NO_OVERRUN: `NoOverrun (.rx CR :: es)` says that a ready line still waits for its poll -/

theorem NoOverrun.nil : NoOverrun [] := by
  intro before e between b after h
  simp at h

theorem NoOverrun.tail {e : Event} {es : List Event} (h : NoOverrun (e :: es)) : NoOverrun es :=
  fun before x between b after he => h (e :: before) x between b after (by rw [he]; rfl)

theorem NoOverrun.not_rx {e b : Byte} {es : List Event} (he : e = CR ∨ e = LF) :
    ¬ NoOverrun (.rx e :: .rx b :: es) := by
  intro h
  simpa using h [] e [] b es rfl he

/-- An event that ends no line starts no wait. -/
theorem NoOverrun.cons {x : Event} {es : List Event} (hx : ∀ b, x = .rx b → ¬ (b = CR ∨ b = LF))
    (h : NoOverrun es) : NoOverrun (x :: es) := by
  intro before e between b after he ht
  match before with
  | [] =>
    simp only [List.nil_append, List.cons.injEq] at he
    exact absurd ht (hx e he.1)
  | y :: before =>
    simp only [List.cons_append, List.cons.injEq] at he
    exact h before e between b after he.2 ht

/-- A poll ends the wait of the line before it. -/
theorem noOverrun_rx_loop {e : Byte} {es : List Event} :
    NoOverrun (.rx e :: .loop :: es) ↔ NoOverrun es := by
  refine ⟨fun h => h.tail.tail, fun h before e' between b after he ht => ?_⟩
  match before, between with
  | [], [] => simp at he
  | [], x :: m =>
    simp only [List.nil_append, List.cons_append, List.cons.injEq] at he
    simp [← he.2.1]
  | [x], m => simp at he
  | x :: y :: before, m =>
    simp only [List.cons_append, List.cons.injEq] at he
    exact h before e' m b after he.2.2 ht

/-- An event that is neither a poll nor a byte leaves a waiting line waiting. -/
theorem NoOverrun.drop_other {e : Byte} {x : Event} {es : List Event} (hl : x ≠ .loop)
    (h : NoOverrun (.rx e :: x :: es)) : NoOverrun (.rx e :: es) := by
  intro before e' between b after he ht
  match before with
  | [] =>
    simp only [List.nil_append, List.cons.injEq, Event.rx.injEq] at he
    obtain ⟨rfl, he⟩ := he
    have := h [] e (x :: between) b after (by rw [he]; rfl) ht
    simpa [hl.symm] using this
  | y :: before =>
    simp only [List.cons_append, List.cons.injEq] at he
    exact h.tail.tail before e' between b after he.2 ht

/-! ## The events of a run -/

/-- A step of a run: it drops an event that is not enabled, or runs one that happens. -/
theorem executed_succ {n : Nat} {s t : State} (h : step s = .next t) :
    (∃ rest, s.events.headD (mainLoopEvent s) :: rest = s.events ∧
      enabledEvent (s.events.headD (mainLoopEvent s)) s = false ∧ t = { s with events := rest } ∧
      executed (n + 1) s = executed n t) ∨
    (∃ e rest, enabledEvent e s = true ∧ runEvent e { s with events := rest } = .next t ∧
      executed (n + 1) s = e :: executed n t) := by
  cases he : s.events with
  | nil =>
    have hs : { s with events := [] } = s := by cases s; simp_all
    have hen : enabledEvent (mainLoopEvent s) s = true := by
      unfold mainLoopEvent
      cases hb : s.booted <;> simp [enabledEvent, hb]
    refine .inr ⟨mainLoopEvent s, [], hen, ?_, by simp [executed, he, h, hen]⟩
    rw [hs, ← h, step_idle he]
    rfl
  | cons e rest =>
    cases hen : enabledEvent e s with
    | true =>
      refine .inr ⟨e, rest, hen, ?_, by simp [executed, he, h, hen]⟩
      rw [← h, step_enabled he hen]
    | false =>
      rw [step_disabled he hen] at h
      injection h with h
      exact .inl ⟨rest, rfl, hen, h.symm, by simp [executed, he, hen, step_disabled he hen, ← h]⟩

/-- An event that faults is the last one of its run. -/
theorem executed_of_fault {n : Nat} {s : State} {f : Fault} (h : step s = .fault f) :
    ∃ e rest, enabledEvent e s = true ∧ runEvent e { s with events := rest } = .fault f ∧
      executed (n + 1) s = [e] := by
  cases he : s.events with
  | nil =>
    have hs : { s with events := [] } = s := by cases s; simp_all
    have hen : enabledEvent (mainLoopEvent s) s = true := by
      unfold mainLoopEvent
      cases hb : s.booted <;> simp [enabledEvent, hb]
    refine ⟨mainLoopEvent s, [], hen, ?_, by simp [executed, he, h, hen]⟩
    rw [hs, ← h, step_idle he]
    rfl
  | cons e rest =>
    cases hen : enabledEvent e s with
    | true =>
      refine ⟨e, rest, hen, ?_, by simp [executed, he, h, hen]⟩
      rw [← h, step_enabled he hen]
    | false => simp [step_disabled he hen] at h

/-! ## Logs that already hold something -/

/-- `s` with something already sent before its logs began. -/
def addLogs (x : Text) (y : List PortAction) (s : State) : State :=
  { s with txLog := x ++ s.txLog, portLog := y ++ s.portLog }

/-- No instruction reads a log: it appends the same to whatever the logs hold. -/
theorem exec_addLogs (i : Instr) (x : Text) (y : List PortAction) (s : State) :
    exec i (addLogs x y s) = mapNext (addLogs x y) (exec i s) := by
  have hf : ∀ f, pwmSetFrequency f (addLogs x y s) = addLogs x y (pwmSetFrequency f s) := by
    intro f
    rcases pwmSetFrequency_cases f s with ⟨h1, h2, he⟩ | ⟨h, he⟩
    · rw [he, pwmSetFrequency_accepted h1 h2, setFrequencyAccepted_eq, setFrequencyAccepted_eq]
      cases hn : s.cfg.nestedReplies <;> simp [addLogs, hn]
    · rw [he, pwmSetFrequency_rejected h, raise_eq, raise_eq]
      simp [addLogs]
  have hrx : ∀ b op, op = terminateLine ∨ op = advanceIndex →
      receive b op (addLogs x y s) = mapNext (addLogs x y) (receive b op s) := by
    intro b op hop
    by_cases hw : s.writeIndex < s.cfg.cap
    · rw [receive_eq (s := addLogs x y s) b op hw, receive_eq b op hw, mapNext_next]
      rcases hop with rfl | rfl
      · simp [terminate_eq, addLogs]
      · simp [advance_eq, addLogs]
    · rw [receive_outside (s := addLogs x y s) b op hw, receive_outside b op hw, mapNext_fault]
  have hl : lineText (addLogs x y s) = lineText s := lineText_congr rfl rfl rfl
  cases i with
  | set v => simp [exec, execSet, addLogs, emit, logPort, pwmSetTarget]
  | freq f => simp [exec, execFreq, hf]
  | start => simp [exec, execStart, pwmStart_eq, addLogs]
  | stop => simp [exec, execStop, pwmStop_eq, addLogs]
  | status => simp [exec, execStatus, addLogs, emit, logPort]
  | unknown => simp [exec, execUnknown, addLogs, raise_eq]
  | rxCr => exact hrx _ _ (.inl rfl)
  | rxLf => exact hrx _ _ (.inl rfl)
  | rxData b => exact hrx _ _ (.inr rfl)
  | rampUp => simp [exec, execRampUp, addLogs, markFiring, pwmSetDuty_eq]
  | rampDown => simp [exec, execRampDown, addLogs, markFiring, pwmSetDuty_eq]
  | rampHold => rfl
  | rearm => simp [exec, execRearm, addLogs, rearm, rxArm, logPort, setRxArmed]
  | take =>
    simp only [exec, execTake]
    rcases takeLine_cases s with ⟨hr, he⟩ | ⟨L, hr, hL, he⟩ | ⟨hr, hL, he⟩
    · rw [he, takeLine_idle (s := addLogs x y s) hr]
      rfl
    · rw [he, takeLine_line (s := addLogs x y s) hr (hl.trans hL)]
      rfl
    · rw [he, takeLine_fault (s := addLogs x y s) hr (hl.trans hL)]
      rfl
  | facadeStart a => simp [exec, execFacadeStart, pwmStart_eq, addLogs]
  | facadeStop a => simp [exec, execFacadeStop, pwmStop_eq, addLogs]
  | setDuty d => simp [exec, execSetDuty, addLogs, pwmSetDuty_eq]
  | setTarget d => rfl
  | setFrequencyAccept f => simp [exec, execSetFrequencyAccept, hf]
  | setFrequencyReject f => simp [exec, execSetFrequencyReject, hf]

/-- The same for instructions one after another. -/
theorem execAll_addLogs (is : List Instr) (x : Text) (y : List PortAction) (s : State) :
    execAll is (addLogs x y s) = mapNext (addLogs x y) (execAll is s) := by
  induction is generalizing s with
  | nil => rfl
  | cons i is ih =>
    simp only [execAll, exec_addLogs]
    cases exec i s with
    | next t => exact ih t
    | fault f => rfl
    | refused r => rfl

end Sys2Proof.Machine
end

