-- ==== Sys2Proof/Tests/Slice0.lean ====
section
/-! SUPPORT. Small tests, their expected values from 95_test_vectors.md (named V…), 30_encoding.md or the
rule named; then, for each statement with hypotheses, a witness that meets them, a clause each. -/

namespace Sys2Proof.Tests

open Sys2Proof Sys2Proof.Machine

/-- A view of the next state, where there is one. -/
def view {α : Type} (f : State → α) : Host.Outcome State Fault Refusal → Option α
  | .next s => some (f s)
  | .fault _ => none
  | .refused _ => none

/-- The fault, where there is one. -/
def stop : Host.Outcome State Fault Refusal → Option Fault
  | .next _ => none
  | .fault f => some f
  | .refused _ => none

/-- The post-boot state of 95_test_vectors.md, its logs left out, with events to come. -/
def post (evs : List Event) : State :=
  { State.reset with rxArmed := true, enabled := true, outEn := true, period := 3599, pulse1 := 1799,
                     pulse2 := 1799, pulse3 := 1799, booted := true, events := evs }

/-- `s` with the first bytes of its buffer. -/
def buffer (bytes : Text) (s : State) : State :=
  { s with lineBuf := bytes.mapIdx fun i b => (i, b) }

/-- The post-boot state with a ready line of these bytes and its sentinel, `Loop` next. -/
def lineState (L : Text) : State :=
  { buffer (L ++ [0x00]) (post [.loop]) with lineReady := true }

/-- The post-boot state at a point of the ramp. -/
def rampState (now target last tick : Nat) : State :=
  { post [.loop] with dutyNow := BitVec.ofNat 7 now, dutyTarget := BitVec.ofNat 7 target,
                      lastStepTick := BitVec.ofNat 32 last, tick := BitVec.ofNat 32 tick }

/-- CFG-A with a buffer of one byte. -/
def cfgOne : Config := { Config.cfgA with cap := 1, cap_pos := by decide }

/-- CFG-A with the least clock. -/
def cfgSlow : Config := { Config.cfgA with clkHz := 50000, clk_ok := by decide }

/-- CFG-A with nested replies announced. -/
def cfgNested : Config := { Config.cfgA with nestedReplies := true }

/-! ## WellFormed refuses each ill-formed operand -/

theorem test_wf_refuses_cr_as_data : (Instr.rxData 0x0D).wf = false := by decide
theorem test_wf_refuses_lf_as_data : (Instr.rxData 0x0A).wf = false := by decide
theorem test_wf_refuses_accept_below : (Instr.setFrequencyAccept 999).wf = false := by decide
theorem test_wf_refuses_accept_above : (Instr.setFrequencyAccept 50001).wf = false := by decide
theorem test_wf_refuses_reject_low_end : (Instr.setFrequencyReject 1000).wf = false := by decide
theorem test_wf_refuses_reject_high_end : (Instr.setFrequencyReject 50000).wf = false := by decide

/-! ## Decoding: words written out from 30_encoding.md R90, R93, R94 -/

/-- V30-1. -/
theorem test_decode_set : decode (.line [0x73, 0x65, 0x74, 0x20, 0x38, 0x30]) = .ok (.set 80) := by decide
/-- V30-11. -/
theorem test_decode_freq : decode (.line [0x66, 0x72, 0x65, 0x71, 0x20, 0x31, 0x30, 0x30, 0x30, 0x30])
    = .ok (.freq 10000) := by decide
/-- V30-16. -/
theorem test_decode_start : decode (.line [0x73, 0x74, 0x61, 0x72, 0x74]) = .ok .start := by decide
/-- V30-18. -/
theorem test_decode_stop : decode (.line [0x73, 0x74, 0x6F, 0x70]) = .ok .stop := by decide
/-- V30-20. -/
theorem test_decode_status : decode (.line [0x73, 0x74, 0x61, 0x74, 0x75, 0x73]) = .ok .status := by decide
/-- V30-22, V30-23. -/
theorem test_decode_unknown : decode (.line []) = .ok .unknown ∧
    decode (.line [0x66, 0x6F, 0x6F]) = .ok .unknown := by decide
/-- R90, V40-8, V40-9. -/
theorem test_decode_bytes : decode (.byte 0x0D) = .ok .rxCr ∧ decode (.byte 0x0A) = .ok .rxLf ∧
    decode (.byte 0x00) = .ok (.rxData 0x00) ∧ decode (.byte 0xFF) = .ok (.rxData 0xFF) := by decide
/-- V30-3, V30-5, V30-7, V30-8, V30-17. -/
theorem test_decode_near_misses : decodeLine [0x73, 0x65, 0x74] = .unknown ∧
    decodeLine [0x53, 0x65, 0x74, 0x20, 0x38, 0x30] = .unknown ∧
    decodeLine [0x73, 0x65, 0x74, 0x09, 0x38, 0x30] = .unknown ∧
    decodeLine [0x20, 0x73, 0x65, 0x74, 0x20, 0x38, 0x30] = .unknown ∧
    decodeLine [0x73, 0x74, 0x61, 0x72, 0x74, 0x20] = .unknown := by decide
/-- V97-4, V97-6, V97-7, V97-9, V97-10, V97-14. -/
theorem test_parse : parseInt [0x31, 0x32, 0x61, 0x62, 0x63] = 12 ∧ parseInt [0x2D, 0x35] = -5 ∧
    parseInt [0x2B, 0x37] = 7 ∧ parseInt [0x2D, 0x2D, 0x35] = 0 ∧ parseInt [0x30, 0x30, 0x37] = 7 ∧
    parseInt [0x09, 0x39] = 9 := by decide
/-- V97-8, V97-9, V97-15: a sign without a digit after it. -/
theorem test_parse_bare_sign : parseInt [0x2D] = 0 ∧ parseInt [0x2B] = 0 ∧ parseInt [0x2D, 0x2D, 0x35] = 0 ∧
    parseInt [0x2D, 0x20, 0x35] = 0 ∧ parseInt [0x2B, 0x2D, 0x35] = 0 := by decide
/-- V97-16: no wrap. -/
theorem test_parse_does_not_wrap :
    parseInt (List.replicate 20 0x39) = 99999999999999999999 := by decide
/-- R91: bytes that hold a 0x00 are no line text. -/
theorem test_decode_rejects_nul : decode (.line [0x73, 0x00]) = .error .notLineText := by decide
/-- The table's `match` words. -/
theorem test_table_words : decodeTableWord 32 0x73657420 = some (.set 0) ∧
    decodeTableWord 40 0x6672657120 = some (.freq 0) ∧ decodeTableWord 48 0x737461727400 = some .start ∧
    decodeTableWord 40 0x73746F7000 = some .stop ∧ decodeTableWord 56 0x73746174757300 = some .status ∧
    decodeTableWord 8 0x0D = some .rxCr ∧ decodeTableWord 8 0x0A = some .rxLf ∧
    decodeTableWord 8 0x00 = some (.rxData 0x00) ∧ decodeTableWord 0 0 = some .unknown := by decide
/-- R102: the encoder, by the same tables. -/
theorem test_encode : encode (.set (-5)) = some (.line [0x73, 0x65, 0x74, 0x20, 0x2D, 0x35]) ∧
    encode (.freq 50000) =
      some (.line [0x66, 0x72, 0x65, 0x71, 0x20, 0x35, 0x30, 0x30, 0x30, 0x30]) := by decide

/-! ## Placing a word and stepping -/

/-- The placed line is taken, run and answered by the very next step. -/
theorem test_step_runs_a_placed_line : view (fun t => (t.dutyTarget.toNat, t.lineReady, t.txLog))
    (step (State.reset.withFetchWord 48 0x736574203830)) =
      some (80, false, [0x54, 0x41, 0x52, 0x47, 0x45, 0x54, 0x20, 0x38, 0x30, 0x25, 0x0D, 0x0A]) := by decide
/-- The placed byte is received by the very next step. -/
theorem test_step_runs_a_placed_byte : view (fun t => (t.lineBuf, t.writeIndex, t.lineReady))
    (step (State.reset.withFetchWord 8 0x41)) = some ([(0, 0x41)], 1, false) := by decide

/-! ## Reset and boot: 95_test_vectors.md P1 -/

theorem test_boot_registers : view
    (fun t => ((t.period, t.pulse1, t.pulse2, t.pulse3), t.enabled, t.outEn, t.rxArmed, t.writeIndex))
    (step State.reset) = some ((3599, 1799, 1799, 1799), true, true, true, 0) := by decide
/-- R107: the 28 bytes of the banner, then TX_EOL. -/
theorem test_boot_banner : view (fun t => t.txLog) (step State.reset) = some
    [0x3D, 0x3D, 0x3D, 0x20, 0x50, 0x57, 0x4D, 0x20, 0x43, 0x4F, 0x4E, 0x54, 0x52, 0x4F, 0x4C, 0x4C, 0x45,
     0x52, 0x20, 0x52, 0x45, 0x41, 0x44, 0x59, 0x20, 0x3D, 0x3D, 0x3D, 0x0D, 0x0A] := by decide

/-! ## The framer -/

/-- V40-2. -/
theorem test_cr_ends_the_line : view (fun t => (t.lineBuf, t.writeIndex, t.lineReady))
    (exec .rxCr { buffer [0x73, 0x74, 0x6F, 0x70] (post []) with writeIndex := 4 }) =
      some ([(0, 0x73), (1, 0x74), (2, 0x6F), (3, 0x70), (4, 0x00)], 0, true) := by decide
/-- V40-5: a second terminator makes the line empty. -/
theorem test_second_lf_empties_the_line : view (fun t => (t.lineByte 0, t.lineByte 1, lineText t))
    (exec .rxLf (lineState [0x73, 0x74, 0x6F, 0x70])) = some (0x00, 0x74, some []) := by decide
/-- V40-7: a terminator at the last index. -/
theorem test_lf_at_the_last_index : view (fun t => (t.lineByte 15, t.writeIndex, t.lineReady))
    (exec .rxLf { post [] with writeIndex := 15 }) = some (0x00, 0, true) := by decide
/-- V40-6: the index wraps. -/
theorem test_data_wraps : view (fun t => (t.lineByte 15, t.writeIndex, t.lineReady))
    (exec (.rxData 0x41) { post [] with writeIndex := 15 }) = some (0x41, 0, false) := by decide
/-- V40-13, V40-8: a one-byte buffer; NUL is data. -/
theorem test_data_one_byte_buffer : view (fun t => (t.lineByte 0, t.writeIndex, t.lineReady))
    (exec (.rxData 0x00) { State.resetWith cfgOne 0 with booted := true }) = some (0x00, 0, false) := by decide
/-- V40-17. -/
theorem test_rearm : view (fun t => (t.rxArmed, t.portLog))
    (exec .rearm { post [] with rxArmed := false, writeIndex := 3 }) = some (true, [.arm 3]) := by decide
/-- V40-15. -/
theorem test_take_clears_the_flag : view (fun t => (t.lineReady, lineText t))
    (exec .take (lineState [0x73, 0x74, 0x6F, 0x70])) = some (false, some [0x73, 0x74, 0x6F, 0x70]) := by decide
/-- V70-3: a full buffer without a sentinel. -/
theorem test_take_faults_without_sentinel : stop (exec .take
    { buffer (List.replicate 16 0x61) (post []) with lineReady := true }) = some .lineUnterminated := by decide

/-! ## Commands: 95_test_vectors.md section 2.4 -/

/-- V41-3. -/
theorem test_set_clamps_above : view (fun t => (t.dutyTarget.toNat, t.dutyNow.toNat, t.txLog))
    (exec (.set 250) (post [])) = some (100, 50,
      [0x54, 0x41, 0x52, 0x47, 0x45, 0x54, 0x20, 0x31, 0x30, 0x30, 0x25, 0x0D, 0x0A]) := by decide
/-- V41-4. -/
theorem test_set_clamps_below : view (fun t => (t.dutyTarget.toNat, t.txLog))
    (exec (.set (-5)) (post [])) = some (0,
      [0x54, 0x41, 0x52, 0x47, 0x45, 0x54, 0x20, 0x30, 0x25, 0x0D, 0x0A]) := by decide
/-- V41-6. -/
theorem test_freq_accepted : view (fun t => (t.freqHz.toNat, t.period, t.pulse1, t.txLog))
    (exec (.freq 10000) (post [])) = some (10000, 7199, 3599,
      [0x46, 0x52, 0x45, 0x51, 0x20, 0x31, 0x30, 0x30, 0x30, 0x30, 0x20, 0x48, 0x7A, 0x0D, 0x0A]) := by decide
/-- V41-15, its transmissions and backend calls in order. -/
theorem test_freq_nested : view (fun t => t.portLog)
    (exec (.freq 10000) { post [] with cfg := cfgNested }) = some
      [.disable, .tx [0x50, 0x57, 0x4D, 0x20, 0x53, 0x54, 0x4F, 0x50, 0x0D, 0x0A],
       .setPeriod 7199, .setPulse 3599 3599 3599, .enable,
       .tx [0x50, 0x57, 0x4D, 0x20, 0x53, 0x54, 0x41, 0x52, 0x54, 0x0D, 0x0A],
       .tx [0x46, 0x52, 0x45, 0x51, 0x20, 0x31, 0x30, 0x30, 0x30, 0x30, 0x20, 0x48, 0x7A, 0x0D, 0x0A]] := by
  decide
/-- V41-9. -/
theorem test_start : view (fun t => (t.enabled, t.portLog)) (exec .start (post [])) =
    some (true, [.enable, .tx [0x50, 0x57, 0x4D, 0x20, 0x53, 0x54, 0x41, 0x52, 0x54, 0x0D, 0x0A]]) := by decide
/-- V41-10. -/
theorem test_stop : view (fun t => (t.enabled, t.outEn, t.portLog)) (exec .stop (post [])) =
    some (false, false,
      [.disable, .tx [0x50, 0x57, 0x4D, 0x20, 0x53, 0x54, 0x4F, 0x50, 0x0D, 0x0A]]) := by decide
/-- V41-12. -/
theorem test_status_on : view (fun t => t.txLog) (exec .status (post [])) = some
    [0x44, 0x75, 0x74, 0x79, 0x3A, 0x20, 0x35, 0x30, 0x25, 0x20, 0x2D, 0x3E, 0x20, 0x35, 0x30, 0x25, 0x0D,
     0x0A, 0x46, 0x72, 0x65, 0x71, 0x3A, 0x20, 0x32, 0x30, 0x30, 0x30, 0x30, 0x20, 0x48, 0x7A, 0x0D, 0x0A,
     0x53, 0x74, 0x61, 0x74, 0x65, 0x3A, 0x20, 0x4F, 0x4E, 0x0D, 0x0A] := by decide
/-- V41-13, the last line. -/
theorem test_status_off : view (fun t => t.portLog.getLast?)
    (exec .status { post [] with enabled := false, outEn := false }) =
      some (some (.tx [0x53, 0x74, 0x61, 0x74, 0x65, 0x3A, 0x20, 0x4F, 0x46, 0x46, 0x0D, 0x0A])) := by decide
/-- V41-14. -/
theorem test_unknown : view (fun t => t.txLog) (exec .unknown (post [])) =
    some [0x43, 0x4D, 0x44, 0x20, 0x45, 0x52, 0x52, 0x0D, 0x0A] := by decide

/-! ## The facade: 95_test_vectors.md section 2.5 -/

/-- V42-3. -/
theorem test_set_duty_truncates : view (fun t => (t.dutyNow.toNat, t.pulse1, t.pulse2, t.pulse3))
    (exec (.setDuty 33) (post [])) = some (33, 1187, 1187, 1187) := by decide
/-- V42-11, V42-12. -/
theorem test_set_duty_clamps : view (fun t => (t.dutyNow.toNat, t.pulse3))
      (exec (.setDuty 101) (post [])) = some (100, 3599) ∧
    view (fun t => (t.dutyNow.toNat, t.pulse3)) (exec (.setDuty (-1)) (post [])) = some (0, 0) := by decide
/-- V42-15. -/
theorem test_accept_not_exact : view (fun t => (t.freqHz.toNat, t.period, t.pulse2, t.enabled))
    (exec (.setFrequencyAccept 7000) { post [] with dutyNow := 33 }) =
      some (7000, 10284, 3393, true) := by decide
/-- V42-18: the least allowed clock. -/
theorem test_accept_least_clock : view (fun t => (t.freqHz.toNat, t.period, t.pulse1))
    (exec (.setFrequencyAccept 50000) { post [] with cfg := cfgSlow }) = some (50000, 0, 0) := by decide
/-- V42-17. -/
theorem test_reject : view (fun t => (t.freqHz.toNat, t.outEn, t.portLog))
    (exec (.setFrequencyReject (-20000)) (post [])) =
      some (20000, true, [.tx [0x46, 0x52, 0x45, 0x51, 0x20, 0x45, 0x52, 0x52, 0x0D, 0x0A]]) := by decide
/-- R170, R178: no announcement, no text. -/
theorem test_facade_start_silent : view (fun t => (t.outEn, t.txLog))
    (exec (.facadeStart false) { post [] with enabled := false, outEn := false }) = some (true, []) := by decide
/-- R171, R178. -/
theorem test_facade_stop_silent : view (fun t => (t.outEn, t.txLog)) (exec (.facadeStop false) (post [])) =
    some (false, []) := by decide
/-- R173. -/
theorem test_set_target : view (fun t => (t.dutyTarget.toNat, t.txLog)) (exec (.setTarget 100) (post [])) =
    some (100, []) := by decide

/-! ## The ramp: 95_test_vectors.md section 2.6 -/

/-- V43-1. -/
theorem test_ramp_waits : view (fun t => (t.dutyNow.toNat, t.lastStepTick.toNat))
    (step (rampState 50 80 0 19)) = some (50, 0) := by decide
/-- V43-2. -/
theorem test_ramp_up : view (fun t => (t.dutyNow.toNat, t.pulse1, t.lastStepTick.toNat))
    (step (rampState 50 80 0 20)) = some (51, 1835, 20) := by decide
/-- V43-8, V43-8b: across the wrap of the tick. -/
theorem test_ramp_across_the_wrap : view (fun t => t.dutyNow.toNat)
      (step (rampState 50 52 0xFFFFFFF0 0x00000003)) = some 50 ∧
    view (fun t => (t.dutyNow.toNat, t.pulse2, t.lastStepTick.toNat))
      (step (rampState 50 52 0xFFFFFFF0 0x00000004)) = some (51, 1835, 4) := by decide
/-- V43-3. -/
theorem test_ramp_down : view (fun t => (t.dutyNow.toNat, t.pulse3, t.lastStepTick.toNat))
    (step (rampState 50 0 0 20)) = some (49, 1763, 20) := by decide
/-- V43-4. -/
theorem test_ramp_hold : view (fun t => (t.dutyNow.toNat, t.lastStepTick.toNat, t.portLog))
    (step (rampState 50 50 20 40)) = some (50, 40, []) := by decide
/-- V43-14: FREQ and a step in one `Loop`. -/
theorem test_freq_and_step_in_one_loop : view
    (fun t => (t.portLog.filter PortAction.isBackend, t.dutyNow.toNat, t.lastStepTick.toNat))
    (step { lineState [0x66, 0x72, 0x65, 0x71, 0x20, 0x31, 0x30, 0x30, 0x30, 0x30] with
      dutyTarget := 52, tick := 20 }) =
      some ([.disable, .setPeriod 7199, .setPulse 3599 3599 3599, .enable, .setPulse 3671 3671 3671],
        51, 20) := by decide
/-- V70-5: the text runs on to the older sentinel. -/
theorem test_overwritten_line : lineText (buffer
    [0x73, 0x74, 0x61, 0x74, 0x75, 0x31, 0x30, 0x30, 0x30, 0x30, 0x00] (post [])) =
      some [0x73, 0x74, 0x61, 0x74, 0x75, 0x31, 0x30, 0x30, 0x30, 0x30] := by decide

/-! ## The premises of R213 -/

/-- A disabled event does not happen; with nothing scheduled the main loop polls. -/
theorem test_executed : executed 4 (post [.boot, .tick, .rx 0x41]) = [.tick, .rx 0x41, .loop] := by decide
/-- A poll after every tick meets LOOP_FAST; twenty ticks and one poll do not. -/
theorem test_loop_fast : LoopFast [.tick, .loop, .tick, .loop] ∧ ¬ LoopFast cadenceRound :=
  ⟨loopFast_tick_loop.2 (loopFast_tick_loop.2 LoopFast.nil), LoopFast.not_tick_tick⟩
/-- V70-7 meets NO_OVERRUN; V70-6, CR LF without a poll, does not. -/
theorem test_no_overrun : NoOverrun [.rx 0x70, .rx 0x0D, .loop, .rx 0x0A, .loop] ∧
    ¬ NoOverrun [.rx 0x0D, .rx 0x0A, .loop] :=
  ⟨NoOverrun.cons (by decide) (noOverrun_rx_loop.2 (noOverrun_rx_loop.2 NoOverrun.nil)),
    NoOverrun.not_rx (.inl rfl)⟩

/-! ## Witnesses: a concrete state and operands that meet each statement's hypotheses -/

theorem witness_DecodingAnEncodedInstructionGivesItBack :
    (Instr.set (-5)).wf = true ∧ encode (.set (-5)) = some (.line [0x73, 0x65, 0x74, 0x20, 0x2D, 0x35]) ∧
    (Instr.rxData 0xFF).wf = true ∧ encode (.rxData 0xFF) = some (.byte 0xFF) ∧
    (Instr.setFrequencyAccept 1000).wf = true ∧ (Instr.setFrequencyAccept 50000).wf = true ∧
    (Instr.setFrequencyReject 999).wf = true ∧ (Instr.setFrequencyReject 50001).wf = true ∧
    encode (.setFrequencyReject 999) = none := by decide

theorem witness_DecodeTakesTheFirstMatchingPattern :
    (∃ T : Text, [0x73, 0x65, 0x74, 0x20] = [0x73, 0x65, 0x74, 0x20] ++ T) ∧
    (∃ T : Text, [0x66, 0x72, 0x65, 0x71, 0x20, 0x37] = [0x66, 0x72, 0x65, 0x71, 0x20] ++ T) ∧
    decodeLine [0x73, 0x74, 0x61, 0x72, 0x74, 0x20] = .unknown := ⟨⟨[], rfl⟩, ⟨[0x37], rfl⟩, by decide⟩

theorem witness_ParseIntHasTheTwoForcedProperties :
    (∀ b ∈ ([0x30, 0x39] : Text), 0x30 ≤ b.toNat ∧ b.toNat ≤ 0x39) ∧
    (¬ (0x30 ≤ (0x2F : Byte).toNat ∧ (0x2F : Byte).toNat ≤ 0x39)) ∧
    (¬ (0x30 ≤ (0x3A : Byte).toNat ∧ (0x3A : Byte).toNat ≤ 0x39)) := by decide

theorem witness_ParseIntSkipsBlanksAndIgnoresTheRest :
    parseInt [0x20, 0x09, 0x0B, 0x0C, 0x35] = 5 ∧
    (∀ d ∈ ([0x35] : Text), 0x30 ≤ d.toNat ∧ d.toNat ≤ 0x39) ∧
    ¬ (0x30 ≤ (0x2E : Byte).toNat ∧ (0x2E : Byte).toNat ≤ 0x39) ∧
    ¬ (0x30 ≤ (0x2D : Byte).toNat ∧ (0x2D : Byte).toNat ≤ 0x39) := by decide

theorem witness_StepRunsTheDecodedInstruction :
    ((post [.rx 0x0D]).booted = true ∧ (post [.rx 0x0D]).rxArmed = true ∧
      (post [.rx 0x0D]).events = .rx 0x0D :: []) ∧
    ((lineState [0x73, 0x74, 0x6F, 0x70]).booted = true ∧
      (lineState [0x73, 0x74, 0x6F, 0x70]).events = .loop :: [] ∧
      (lineState [0x73, 0x74, 0x6F, 0x70]).lineReady = true ∧
      lineText (lineState [0x73, 0x74, 0x6F, 0x70]) = some [0x73, 0x74, 0x6F, 0x70]) := by decide

theorem witness_IdleLoopFiresTheRampAtTheCadence :
    (rampState 50 80 0 19).booted = true ∧ (rampState 50 80 0 19).events = .loop :: [] ∧
    (rampState 50 80 0 19).lineReady = false ∧
    ((rampState 50 80 0 19).tick.toNat + 2 ^ 32 - (rampState 50 80 0 19).lastStepTick.toNat) % 2 ^ 32 < 20 ∧
    20 ≤ ((rampState 50 50 0xFFFFFFF0 4).tick.toNat + 2 ^ 32 -
      (rampState 50 50 0xFFFFFFF0 4).lastStepTick.toNat) % 2 ^ 32 := by decide

theorem witness_DisabledEventsLeaveNoTrace :
    (State.reset.booted = false ∧ Event.rx 0x41 ≠ .reset ∧ Event.rx 0x41 ≠ .boot) ∧
    ((post [.boot]).booted = true ∧ (post [.boot]).events = .boot :: []) ∧
    ({ post [.rx 0x41] with rxArmed := false } : State).rxArmed = false ∧ (post []).events = [] := by decide

theorem witness_TickAdvancesByOneAndTouchesNothingElse :
    (post [.tick]).booted = true ∧ (post [.tick]).events = .tick :: [] ∧
    view (fun t => t.tick.toNat) (step { post [.tick] with tick := 0xFFFFFFFF }) = some 0 := by decide

theorem witness_ResetRestoresTheDefaults : (post [.reset, .boot]).events = .reset :: [.boot] := by decide

theorem witness_NothingPersistsAcrossReset :
    (post [.reset]).events = .reset :: [] ∧ (rampState 1 2 3 4).cfg = (post [.reset]).cfg ∧
    ({ rampState 1 2 3 4 with events := [.reset] } : State).events = .reset :: [] ∧
    (rampState 1 2 3 4).draw = (post [.reset]).draw := by decide

theorem witness_BootProgramsTheDefaultsAndArms :
    ({ State.reset with events := [.boot] } : State).booted = false ∧
    ({ State.reset with events := [.boot] } : State).events = .boot :: [] ∧
    3599 = State.reset.cfg.clkHz / 20000 - 1 ∧ 1799 = 50 * 3599 / 100 := by decide

theorem witness_BannerIsSentOncePerReset :
    (∃ t, State.reset.portLog.count (.tx (replyBanner ++ State.reset.cfg.txEol)) =
      (if State.reset.booted then 1 else 0) ∧ step State.reset = .next t) ∧
    ∃ t, State.reset.booted = false ∧ State.reset.txLog = [] ∧
      step { State.reset with events := [.boot] } = .next t := ⟨⟨_, rfl, rfl⟩, _, rfl, rfl, rfl⟩

theorem witness_StatusAfterBootReportsOn :
    (∃ t, (post [.reset]).events = .reset :: [] ∧ step (post [.reset]) = .next t) ∧
    ({ State.reset with events := [.boot] } : State).booted = false := ⟨⟨_, rfl, rfl⟩, rfl⟩

theorem witness_TerminatorEndsTheLine :
    ({ post [] with writeIndex := 15 } : State).writeIndex < (post []).cfg.cap := by decide

theorem witness_DataByteIsStoredAndTheIndexWraps : (0x00 : Byte) ≠ 0x0D ∧ (0x00 : Byte) ≠ 0x0A ∧
    ({ post [] with writeIndex := 15 } : State).writeIndex < (post []).cfg.cap ∧
    ({ post [] with writeIndex := 15 } : State).writeIndex + 1 = (post []).cfg.cap ∧
    ({ post [] with writeIndex := 14 } : State).writeIndex + 1 ≠ (post []).cfg.cap := by decide

theorem witness_ByteOperationStopsOnlyOutsideTheBuffer :
    (Instr.rxCr).format = .BYTE ∧ (Instr.rxLf).format = .BYTE ∧ (Instr.rxData 0x41).format = .BYTE ∧
    ¬ ({ post [] with writeIndex := 16 } : State).writeIndex < (post []).cfg.cap ∧
    ({ post [] with writeIndex := 15 } : State).writeIndex < (post []).cfg.cap := by decide

theorem witness_EveryByteRearmsExactlyOnce :
    (∃ t, exec (decodeByte 0x0D) (post []) = .next t) ∧ (∃ t, exec (decodeByte 0x41) (post []) = .next t) ∧
    (∃ t, State.reset.booted = false ∧ step { State.reset with events := [.boot] } = .next t) ∧
    ∃ t, (post [.tick]).rxArmed = true ∧ step (post [.tick]) = .next t ∧ t.booted = true :=
  ⟨⟨_, rfl⟩, ⟨_, rfl⟩, ⟨_, rfl, rfl⟩, _, rfl, rfl, rfl⟩

theorem witness_TakeClearsTheFlagOrFaults :
    (post []).lineReady = false ∧ (lineState []).lineReady = true ∧
    (∃ k, k < (lineState []).cfg.cap ∧ (lineState []).lineByte k = 0x00) ∧
    ∀ k, k < 16 → (buffer (List.replicate 16 0x61) (post [])).lineByte k ≠ 0x00 :=
  ⟨rfl, rfl, ⟨0, by decide, by decide⟩, by decide⟩

theorem witness_OnlyTakeClearsTheReadyFlag :
    (post []).lineReady = false ∧ view (fun t => t.lineReady) (exec .rxLf (post [])) = some true ∧
    (lineState []).lineReady = true ∧ view (fun t => t.lineReady) (exec .take (lineState [])) = some false :=
  by decide

theorem witness_HandOffProtocolIsKept :
    (∃ t, rxEvent 0x41 (post []) = .next t) ∧ (∃ t, loopEvent (lineState []) = .next t) ∧
    (post []).lineReady = false := ⟨⟨_, rfl⟩, ⟨_, rfl⟩, rfl⟩

/-- Three bytes into CFG-A's sixteen; and a text longer than the buffer meets them as well. -/
theorem witness_LineOfDataBytesIsFramedToItsTail :
    (post []).booted = true ∧ (post []).rxArmed = true ∧ (post []).writeIndex = 0 ∧
    (∀ b ∈ ([0x66, 0x6F, 0x6F] : Text), b ≠ 0x00 ∧ b ≠ 0x0D ∧ b ≠ 0x0A) ∧
    (∀ b ∈ List.replicate 17 (0x61 : Byte), b ≠ 0x00 ∧ b ≠ 0x0D ∧ b ≠ 0x0A) ∧
    (post (receiveAll [0x66, 0x6F, 0x6F] ++ [.rx 0x0A])).events =
      receiveAll [0x66, 0x6F, 0x6F] ++ .rx 0x0A :: [] := by decide

theorem witness_SentCommandIsExecuted :
    (Instr.stop).isCommand = true ∧ encode .stop = some (.line [0x73, 0x74, 0x6F, 0x70]) ∧
    ([0x73, 0x74, 0x6F, 0x70] : Text).length < (post []).cfg.cap ∧
    (post (receiveAll [0x73, 0x74, 0x6F, 0x70] ++ [.rx 0x0D, .loop])).events =
      receiveAll [0x73, 0x74, 0x6F, 0x70] ++ .rx 0x0D :: .loop :: [] ∧
    (post []).booted = true ∧ (post []).rxArmed = true ∧ (post []).writeIndex = 0 := by decide

/-- V70-1: `se` over `status`. -/
theorem witness_UntakenLineIsOverwrittenFromItsStart :
    (lineState [0x73, 0x74, 0x61, 0x74, 0x75, 0x73]).writeIndex = 0 ∧
    (lineState []).booted = true ∧ (lineState []).rxArmed = true ∧
    lineText (lineState [0x73, 0x74, 0x61, 0x74, 0x75, 0x73]) =
      some [0x73, 0x74, 0x61, 0x74, 0x75, 0x73] ∧
    ([0x73, 0x65] : Text).length ≤ ([0x73, 0x74, 0x61, 0x74, 0x75, 0x73] : Text).length ∧
    (∀ b ∈ ([0x73, 0x65] : Text), b ≠ 0x00 ∧ b ≠ 0x0D ∧ b ≠ 0x0A) := by decide

/-- V70-6. -/
theorem witness_CrLfWithoutAPollDestroysTheCommand :
    ({ buffer [0x73, 0x74, 0x6F, 0x70] (post [.rx 0x0D, .rx 0x0A, .loop]) with writeIndex := 4 }
      : State).events = .rx 0x0D :: .rx 0x0A :: .loop :: [] ∧
    4 < (post []).cfg.cap ∧ (post []).booted = true ∧ (post []).rxArmed = true := by decide

theorem witness_TerminatedLineIsTakenWithoutFault :
    (post [.rx 0x0A, .loop]).events = .rx 0x0A :: .loop :: [] ∧ (post []).booted = true ∧
    (post []).rxArmed = true ∧
    ({ post [] with writeIndex := 15 } : State).writeIndex < (post []).cfg.cap := by decide

/-- The clause on runs: a byte at the last index of the buffer, then two terminators, a poll after each. -/
theorem witness_NoOverrunRun :
    let s : State := { post [.rx 0x66, .rx 0x0A, .loop, .rx 0x0D, .loop] with writeIndex := 15 }
    FramerInv s ∧ s.lineReady = false ∧ NoOverrun (executed 5 s) :=
  ⟨⟨by decide, by decide, by decide⟩, rfl,
    NoOverrun.cons (by decide) (noOverrun_rx_loop.2 (noOverrun_rx_loop.2 NoOverrun.nil))⟩

theorem witness_SetStoresAndRepliesTheClampedTarget :
    ((0 : Nat) : Int) = max 0 (min 100 (-1)) ∧ ((0 : Nat) : Int) = max 0 (min 100 0) ∧
    ((100 : Nat) : Int) = max 0 (min 100 100) ∧ ((100 : Nat) : Int) = max 0 (min 100 101) := by decide

/-- V30-24, V30-25: the ends of the range. -/
theorem witness_FreqOperandIsPassedUnclamped :
    1000 ≤ parseInt [0x31, 0x30, 0x30, 0x30] ∧ parseInt [0x35, 0x30, 0x30, 0x30, 0x30] ≤ 50000 ∧
    parseInt [0x39, 0x39, 0x39] < 1000 ∧ 50000 < parseInt [0x35, 0x30, 0x30, 0x30, 0x31] ∧
    parseInt [] < 1000 := by decide

theorem witness_AcceptedFrequencyReprogramsAndRestarts :
    (1000 ≤ 1000 ∧ 50000 ≤ 50000) ∧ (post []).dutyNow.toNat ≤ 100 ∧
    71999 = (post []).cfg.clkHz / 1000 - 1 ∧ 35999 = (post []).dutyNow.toNat * 71999 / 100 := by decide

theorem witness_RejectedFrequencyChangesNothing :
    ((999 : Int) < 1000 ∨ 50000 < (999 : Int)) ∧ ((50001 : Int) < 1000 ∨ 50000 < (50001 : Int)) := by decide

theorem witness_FrequencyChangeKeepsTheSafeOrder :
    (∃ t, exec (.freq 1000) (post []) = .next t) ∧ ∃ t, exec (.freq 999) (post []) = .next t :=
  ⟨⟨_, rfl⟩, _, rfl⟩

theorem witness_AcceptedFrequencyRestartsAStoppedGenerator :
    (Instr.freq 50000 = .freq 50000 ∨ Instr.freq 50000 = .setFrequencyAccept 50000) ∧
    (Instr.setFrequencyAccept 1000 = .freq 1000 ∨
      Instr.setFrequencyAccept 1000 = .setFrequencyAccept 1000) ∧
    (1000 : Int) ≤ 1000 ∧ (50000 : Int) ≤ 50000 := by decide

theorem witness_StartEnablesTheOutputs :
    (Instr.facadeStart false = .facadeStart false ∨ (Instr.facadeStart false = .start ∧ false = true)) ∧
    (Instr.start = .facadeStart true ∨ (Instr.start = .start ∧ true = true)) := by decide

theorem witness_StopDisablesTheOutputsAndTheRampGoesOn :
    (Instr.facadeStop false = .facadeStop false ∨ (Instr.facadeStop false = .stop ∧ false = true)) ∧
    (Instr.stop = .facadeStop true ∨ (Instr.stop = .stop ∧ true = true)) := by decide

theorem witness_StatusReportsThreeLines : ∃ l1 : Text,
    l1 = [0x44, 0x75, 0x74, 0x79, 0x3A, 0x20] ++ dec (post []).dutyNow.toNat ++ [0x25, 0x20, 0x2D, 0x3E, 0x20]
      ++ dec (post []).dutyTarget.toNat ++ [0x25] ++ (post []).cfg.txEol ∧
    l1 = [0x44, 0x75, 0x74, 0x79, 0x3A, 0x20, 0x35, 0x30, 0x25, 0x20, 0x2D, 0x3E, 0x20, 0x35, 0x30, 0x25,
      0x0D, 0x0A] := ⟨_, rfl, by decide⟩

theorem witness_UnknownLineIsAnsweredAndDiscarded :
    (lineState [0x66, 0x6F, 0x6F]).booted = true ∧ (lineState [0x66, 0x6F, 0x6F]).events = .loop :: [] ∧
    (lineState [0x66, 0x6F, 0x6F]).lineReady = true ∧
    lineText (lineState [0x66, 0x6F, 0x6F]) = some [0x66, 0x6F, 0x6F] ∧
    decodeLine [0x66, 0x6F, 0x6F] = .unknown := by decide

theorem witness_ErrorsDoNotAffectLaterInstructions :
    (∃ f, ((f : Int) < 1000 ∨ 50000 < f) ∧
      (Instr.freq 50001 = .freq f ∨ Instr.freq 50001 = .setFrequencyReject f)) ∧
    ∃ f, ((f : Int) < 1000 ∨ 50000 < f) ∧
      (Instr.setFrequencyReject 999 = .freq f ∨ Instr.setFrequencyReject 999 = .setFrequencyReject f) :=
  ⟨⟨50001, by decide⟩, 999, by decide⟩

theorem witness_EveryCommandRepliesItsNumberOfLines :
    (Instr.set 1).isCommand = true ∧ (Instr.freq 1).isCommand = true ∧ (Instr.start).isCommand = true ∧
    (Instr.stop).isCommand = true ∧ (Instr.status).isCommand = true ∧ (Instr.unknown).isCommand = true ∧
    (Instr.rearm).isCommand = false := by decide

theorem witness_SetDutyWritesOnePulseToAllChannels :
    ((0 : Nat) : Int) = max 0 (min 100 (-1)) ∧ ((100 : Nat) : Int) = max 0 (min 100 101) ∧
    1187 = 33 * (post []).period / 100 ∧ 0 = 0 * (post []).period / 100 ∧
    3599 = 100 * (post []).period / 100 := by decide

theorem witness_OnlySetChangesTheTarget :
    view (fun t => decide (t.dutyTarget ≠ (post []).dutyTarget)) (exec (.set 51) (post [])) = some true ∧
    view (fun t => decide (t.dutyTarget ≠ (post []).dutyTarget)) (exec (.setTarget 0) (post [])) = some true :=
  by decide

theorem witness_PeriodAndPulseStayInRange :
    periodFor cfgSlow 50000 + 1 = cfgSlow.clkHz / 50000 ∧ pulseFor 0 100 < pulseFor 1 100 ∧
    pulseFor 1 99 = pulseFor 0 99 ∧ pulseFor 100 3599 = 3599 := by decide

theorem witness_RampUpStepsTowardTheTarget :
    (rampState 99 100 0 20).dutyNow.toNat < (rampState 99 100 0 20).dutyTarget.toNat ∧
    (rampState 99 100 0 20).dutyTarget.toNat ≤ 100 ∧
    3599 = ((rampState 99 100 0 20).dutyNow.toNat + 1) * (rampState 99 100 0 20).period / 100 := by decide

theorem witness_RampDownStepsTowardTheTarget :
    (rampState 1 0 0 20).dutyTarget.toNat < (rampState 1 0 0 20).dutyNow.toNat ∧
    (rampState 1 0 0 20).dutyNow.toNat ≤ 100 ∧
    0 = ((rampState 1 0 0 20).dutyNow.toNat - 1) * (rampState 1 0 0 20).period / 100 := by decide

theorem witness_RampHoldOnlySamplesTheTick :
    (rampState 50 50 0 20).dutyNow = (rampState 50 50 0 20).dutyTarget := by decide

theorem pwmInv_rampState_up : PwmInv (rampState 0 100 0 0) :=
  ⟨by decide, by decide, by decide, by decide, by decide⟩

theorem pwmInv_rampState_down : PwmInv (rampState 100 0 0 20) :=
  ⟨by decide, by decide, by decide, by decide, by decide⟩

theorem pwmInv_rampState_at : PwmInv (rampState 50 50 0 0) :=
  ⟨by decide, by decide, by decide, by decide, by decide⟩

/-- The clause under LOOP_FAST: one tick short of a firing below the target, and a run of no step at the
target, where both of its cases meet. -/
theorem witness_RampUnderLoopFast :
    (let s : State := { rampState 99 100 0 19 with events := [.tick, .loop] }
     s.booted = true ∧ s.lineReady = false ∧ PwmInv s ∧ s.tick = s.lastStepTick + BitVec.ofNat 32 19 ∧
      LoopFast (executed 2 s) ∧ (∀ x ∈ executed 2 s, x = .tick ∨ x = .loop) ∧
      (executed 2 s).getLast? ≠ some .tick ∧ (executed 2 s).count .tick = 1) ∧
    (PwmInv (rampState 50 50 0 0) ∧ LoopFast (executed 0 (rampState 50 50 0 0)) ∧
      (rampState 50 50 0 0).dutyNow.toNat ≤ (rampState 50 50 0 0).dutyTarget.toNat ∧
      (rampState 50 50 0 0).dutyTarget.toNat ≤ (rampState 50 50 0 0).dutyNow.toNat) :=
  ⟨⟨rfl, rfl, ⟨by decide, by decide, by decide, by decide, by decide⟩, by decide,
      loopFast_tick_loop.2 LoopFast.nil, by decide, by decide, by decide⟩,
    pwmInv_rampState_at, LoopFast.nil, by decide, by decide⟩

/-- V43-9: a hundred rounds from 0 to 100; and a start at the target, where both cases meet. -/
theorem witness_RampReachesTheTargetInItsDistanceOfRounds :
    (PwmInv (rampState 50 50 0 0) ∧ (rampState 50 50 0 0).lineReady = false ∧
      (rampState 50 50 0 0).lastStepTick = (rampState 50 50 0 0).tick) ∧
    PwmInv (rampState 0 100 0 0) ∧ (rampState 0 100 0 0).booted = true ∧
    (rampState 0 100 0 0).lineReady = false ∧
    (rampState 0 100 0 0).lastStepTick = (rampState 0 100 0 0).tick ∧
    ({ rampState 0 100 0 0 with events := cadenceRounds 100 ++ [] } : State).events =
      cadenceRounds 100 ++ [] :=
  ⟨⟨pwmInv_rampState_at, by decide, by decide⟩, pwmInv_rampState_up, by decide, by decide, by decide, rfl⟩

theorem witness_RampCheckNeverMovesAwayFromTheTarget :
    PwmInv (rampState 0 100 0 0) ∧ PwmInv (rampState 100 0 0 20) ∧
    (rampState 0 100 0 0).dutyNow.toNat ≤ (rampState 0 100 0 0).dutyTarget.toNat ∧
    (rampState 100 0 0 20).dutyTarget.toNat ≤ (rampState 100 0 0 20).dutyNow.toNat :=
  ⟨pwmInv_rampState_up, pwmInv_rampState_down, by decide, by decide⟩

/-- V43-14's state. -/
theorem witness_FreqAndRampStepShareOneLoopInOrder :
    let s : State := { lineState [0x66, 0x72, 0x65, 0x71, 0x20, 0x31, 0x30, 0x30, 0x30, 0x30] with
      dutyTarget := 52, tick := 20 }
    ∃ t, s.lineReady = true ∧
      lineText s = some [0x66, 0x72, 0x65, 0x71, 0x20, 0x31, 0x30, 0x30, 0x30, 0x30] ∧
      decodeLine [0x66, 0x72, 0x65, 0x71, 0x20, 0x31, 0x30, 0x30, 0x30, 0x30] = .freq 10000 ∧
      s.dutyNow ≠ s.dutyTarget ∧ PwmInv s ∧
      20 ≤ (s.tick.toNat + 2 ^ 32 - s.lastStepTick.toNat) % 2 ^ 32 ∧ loopEvent s = .next t :=
  ⟨_, by decide, by decide, by decide, by decide,
    ⟨by decide, by decide, by decide, by decide, by decide⟩, by decide, rfl⟩

theorem witness_OnlyTheMainLoopTouchesPwmState :
    (∃ t, (post [.rx 0x41]).events = .rx 0x41 :: [] ∧ step (post [.rx 0x41]) = .next t) ∧
    ∃ t, (post [.tick]).events = .tick :: [] ∧ step (post [.tick]) = .next t :=
  ⟨⟨_, rfl, rfl⟩, _, rfl, rfl⟩

/-- Instructions that change a register of each clause. -/
theorem witness_EachRegisterHasItsWriters :
    (∃ t, (Instr.rxLf).wf = true ∧ exec .rxLf { post [] with writeIndex := 3 } = .next t) ∧
    (∃ t, exec .take (lineState []) = .next t) ∧ (∃ t, exec (.freq 1000) (post []) = .next t) ∧
    (∃ t, exec .stop (post []) = .next t) ∧ (∃ t, exec (.set 1) (post []) = .next t) ∧
    (∃ t, exec .rampUp (rampState 50 51 0 20) = .next t) ∧
    ∃ t, exec .rearm { post [] with rxArmed := false } = .next t :=
  ⟨⟨_, rfl, rfl⟩, ⟨_, rfl⟩, ⟨_, rfl⟩, ⟨_, rfl⟩, ⟨_, rfl⟩, ⟨_, rfl⟩, _, rfl⟩

theorem witness_ReceptionCommutesWithCommands :
    (Instr.status).isCommand = true ∧ (Instr.rampUp).format = .RAMP := by decide

theorem framerInv_full : FramerInv { buffer (List.replicate 16 0x61) (post [.loop]) with lineReady := true } :=
  ⟨by decide, by decide, by decide⟩

theorem witness_OnlyAnUnterminatedTakeFaults :
    FramerInv { buffer (List.replicate 16 0x61) (post [.loop]) with lineReady := true } ∧
    stop (step { buffer (List.replicate 16 0x61) (post [.loop]) with lineReady := true }) =
      some .lineUnterminated := ⟨framerInv_full, by decide⟩

theorem witness_LogsOnlyGrowAndAgree :
    (∃ t, (lineState []).events.head? ≠ some .reset ∧ step (lineState []) = .next t) ∧
    (lineState []).txLog = ((lineState []).portLog.map PortAction.txBytes).flatten :=
  ⟨⟨_, by decide, rfl⟩, rfl⟩

theorem witness_StepKeepsTheConfiguration :
    (∃ t, step State.reset = .next t) ∧ ∃ t, step (post [.reset]) = .next t := ⟨⟨_, rfl⟩, _, rfl⟩

theorem witness_PwmInvariantIsKept : PwmInv (rampState 100 0 0 20) ∧
    (∃ t, step (rampState 100 0 0 20) = .next t) ∧ ∃ t, exec (.freq 50000) (rampState 100 0 0 20) = .next t :=
  ⟨pwmInv_rampState_down, ⟨_, rfl⟩, _, rfl⟩

theorem witness_FramerInvariantIsKept : ∃ t, FramerInv { post [.rx 0x41] with writeIndex := 15 } ∧
    step { post [.rx 0x41] with writeIndex := 15 } = .next t :=
  ⟨_, ⟨by decide, by decide, by decide⟩, rfl⟩

theorem witness_BackendPictureIsKept : ∃ t, PwmInv (rampState 50 51 0 20) ∧
    BackendInv (rampState 50 51 0 20) ∧ step (rampState 50 51 0 20) = .next t :=
  ⟨_, ⟨by decide, by decide, by decide, by decide, by decide⟩,
    ⟨by decide, by decide, by decide, by decide, by decide, by decide, by decide⟩, rfl⟩

end Sys2Proof.Tests
end

section
/-! The PwmState invariants of 10_state.md R32. Only the facade's operations write what `PwmInv` speaks of
(DUTY_NOW, DUTY_TARGET, ENABLED, FREQ_HZ and OUT_EN), so each of them is shown once to keep it; everything
else keeps it because it leaves those five registers alone. -/

namespace Sys2Proof.Machine

/-! ## The operations -/

/-- The invariant speaks of PwmState and OUT_EN only. -/
theorem PwmInv.of_regs {s t : State} (hs : PwmInv s) (hregs : pwmRegs t = pwmRegs s)
    (hout : t.outEn = s.outEn) : PwmInv t := by
  simp only [pwmRegs, Prod.mk.injEq] at hregs
  obtain ⟨hnow, htarget, henabled, hfreq⟩ := hregs
  constructor
  · exact hnow ▸ hs.now_le
  · exact htarget ▸ hs.target_le
  · exact hfreq ▸ hs.freq_ge
  · exact hfreq ▸ hs.freq_le
  · exact henabled ▸ hout ▸ hs.off

theorem pwmInv_of_next {s t : State} (h : (.next s : Host.Outcome State Fault Refusal) = .next t)
    (hs : PwmInv s) : PwmInv t :=
  Host.Outcome.next.inj h ▸ hs

theorem pwmInv_emit {s : State} (x : Text) (hs : PwmInv s) : PwmInv (emit x s) :=
  hs.of_regs rfl rfl

theorem pwmInv_markFiring {s : State} (hs : PwmInv s) : PwmInv (markFiring s) :=
  hs.of_regs rfl rfl

theorem pwmInv_landing {s : State} (b : Byte) (hs : PwmInv s) : PwmInv (landing b s) :=
  hs.of_regs rfl rfl

theorem pwmInv_terminateLine {s : State} (hs : PwmInv s) : PwmInv (terminateLine s) :=
  hs.of_regs rfl rfl

theorem pwmInv_advanceIndex {s : State} (hs : PwmInv s) : PwmInv (advanceIndex s) :=
  hs.of_regs rfl rfl

theorem pwmInv_rearm {s : State} (hs : PwmInv s) : PwmInv (rearm s) :=
  hs.of_regs rfl rfl

/-- The clamp of R181 keeps DUTY_NOW in range, whatever the operand. -/
theorem pwmInv_pwmSetDuty {s : State} (duty : Int) (hs : PwmInv s) : PwmInv (pwmSetDuty duty s) where
  now_le := (dutyNow_toNat_of_clamp duty).trans_le (clampDuty_val_le duty)
  target_le := hs.target_le
  freq_ge := hs.freq_ge
  freq_le := hs.freq_le
  off := hs.off

theorem pwmInv_pwmSetTarget {s : State} (d : Fin 101) (hs : PwmInv s) : PwmInv (pwmSetTarget d s) where
  now_le := hs.now_le
  target_le := (BitVec.toNat_ofNat d.val 7).trans_le ((Nat.mod_le _ _).trans (Nat.le_of_lt_succ d.isLt))
  freq_ge := hs.freq_ge
  freq_le := hs.freq_le
  off := hs.off

theorem pwmInv_pwmStart {s : State} (announce : Bool) (hs : PwmInv s) : PwmInv (pwmStart announce s) := by
  rw [pwmStart_eq]
  exact { hs with off := nofun }

theorem pwmInv_pwmStop {s : State} (announce : Bool) (hs : PwmInv s) : PwmInv (pwmStop announce s) := by
  rw [pwmStop_eq]
  exact { hs with off := fun _ => rfl }

/-- An accepted frequency is stored unchanged: it fits the 16 bits of FREQ_HZ. -/
theorem toNat_ofInt_of_freqInRange {f : Int} (hlo : 1000 ≤ f) (hhi : f ≤ 50000) :
    ((BitVec.ofInt 16 f).toNat : Int) = f := by
  rw [BitVec.toNat_ofInt]
  omega

theorem pwmInv_setFrequencyAccepted {s : State} {f : Int} (hlo : 1000 ≤ f) (hhi : f ≤ 50000)
    (hs : PwmInv s) : PwmInv (setFrequencyAccepted f s) := by
  have hstored := toNat_ofInt_of_freqInRange hlo hhi
  rw [setFrequencyAccepted_eq]
  constructor
  case now_le => exact (dutyNow_toNat_of_clamp _).trans_le (clampDuty_val_le _)
  case target_le => exact hs.target_le
  case freq_ge => dsimp only; omega
  case freq_le => dsimp only; omega
  case off => nofun

theorem pwmInv_pwmSetFrequency {s : State} (f : Int) (hs : PwmInv s) : PwmInv (pwmSetFrequency f s) := by
  rcases pwmSetFrequency_cases f s with ⟨hlo, hhi, he⟩ | ⟨-, he⟩ <;> rw [he]
  · exact pwmInv_setFrequencyAccepted hlo hhi hs
  · exact pwmInv_emit _ hs

/-! ## The instructions -/

/-- Landing and re-arm (R120) write the receiver's registers only, so the operation in between decides. -/
theorem pwmInv_receive {s t : State} {b : Byte} {op : State → State} (hop : ∀ u, PwmInv u → PwmInv (op u))
    (hs : PwmInv s) (h : receive b op s = .next t) : PwmInv t := by
  obtain ⟨-, rfl⟩ := receive_next h
  exact pwmInv_rearm (hop _ (pwmInv_landing b hs))

theorem pwmInv_execTake {s t : State} (hs : PwmInv s) (h : execTake s = .next t) : PwmInv t := by
  unfold execTake at h
  rcases takeLine_cases s with ⟨-, he⟩ | ⟨L, -, -, he⟩ | ⟨-, -, he⟩ <;> rw [he] at h
  · exact pwmInv_of_next h hs
  · exact pwmInv_of_next h (hs.of_regs rfl rfl)
  · cases h

theorem pwmInv_exec {i : Instr} {s t : State} (hs : PwmInv s) (h : exec i s = .next t) : PwmInv t := by
  cases i with
  | set v => exact pwmInv_of_next h (pwmInv_emit _ (pwmInv_pwmSetTarget _ hs))
  | freq f => exact pwmInv_of_next h (pwmInv_pwmSetFrequency f hs)
  | start => exact pwmInv_of_next h (pwmInv_pwmStart true hs)
  | stop => exact pwmInv_of_next h (pwmInv_pwmStop true hs)
  | status => exact pwmInv_of_next h (pwmInv_emit _ (pwmInv_emit _ (pwmInv_emit _ hs)))
  | unknown => exact pwmInv_of_next h (pwmInv_emit _ hs)
  | rxCr => exact pwmInv_receive (fun _ => pwmInv_terminateLine) hs h
  | rxLf => exact pwmInv_receive (fun _ => pwmInv_terminateLine) hs h
  | rxData b => exact pwmInv_receive (fun _ => pwmInv_advanceIndex) hs h
  | rampUp => exact pwmInv_of_next h (pwmInv_pwmSetDuty _ (pwmInv_markFiring hs))
  | rampDown => exact pwmInv_of_next h (pwmInv_pwmSetDuty _ (pwmInv_markFiring hs))
  | rampHold => exact pwmInv_of_next h (pwmInv_markFiring hs)
  | rearm => exact pwmInv_of_next h (pwmInv_rearm hs)
  | take => exact pwmInv_execTake hs h
  | facadeStart announce => exact pwmInv_of_next h (pwmInv_pwmStart announce hs)
  | facadeStop announce => exact pwmInv_of_next h (pwmInv_pwmStop announce hs)
  | setDuty duty => exact pwmInv_of_next h (pwmInv_pwmSetDuty duty hs)
  | setTarget d => exact pwmInv_of_next h (pwmInv_pwmSetTarget d hs)
  | setFrequencyAccept f => exact pwmInv_of_next h (pwmInv_pwmSetFrequency f hs)
  | setFrequencyReject f => exact pwmInv_of_next h (pwmInv_pwmSetFrequency f hs)

/-! ## The events -/

theorem pwmInv_rampCheck {s t : State} (hs : PwmInv s) (h : rampCheck s = .next t) : PwmInv t := by
  by_cases hdue : rampIntervalMs ≤ elapsed s
  · exact pwmInv_exec hs (rampCheck_fires hdue ▸ h)
  · exact pwmInv_of_next (rampCheck_idle hdue ▸ h) hs

theorem pwmInv_loopEvent {s t : State} (hs : PwmInv s) (h : loopEvent s = .next t) : PwmInv t := by
  rcases loopEvent_next h with ⟨-, hramp⟩ | ⟨L, u, -, -, hexec, hramp⟩
  · exact pwmInv_rampCheck hs hramp
  · have htaken : PwmInv { s with lineReady := false } := hs.of_regs rfl rfl
    exact pwmInv_rampCheck (pwmInv_exec htaken hexec) hramp

theorem pwmInv_bootEvent {s t : State} (hs : PwmInv s) (h : bootEvent s = .next t) : PwmInv t := by
  rw [bootEvent_eq] at h
  refine pwmInv_of_next h ?_
  constructor
  case now_le => exact (by decide : (50 : BitVec 7).toNat ≤ 100)
  case target_le => exact hs.target_le
  case freq_ge => exact hs.freq_ge
  case freq_le => exact hs.freq_le
  case off => nofun

/-- The reset values of R42 meet the invariant under every configuration. -/
theorem pwmInv_resetWith (cfg : Config) (draw : Nat) : PwmInv (State.resetWith cfg draw) where
  now_le := (by decide : (BitVec.ofNat 7 defaultDuty).toNat ≤ 100)
  target_le := (by decide : (BitVec.ofNat 7 defaultDuty).toNat ≤ 100)
  freq_ge := (by decide : 1000 ≤ (BitVec.ofNat 16 defaultFreq).toNat)
  freq_le := (by decide : (BitVec.ofNat 16 defaultFreq).toNat ≤ 50000)
  off := fun _ => rfl

theorem pwmInv_runEvent {e : Event} {s t : State} (hs : PwmInv s) (h : runEvent e s = .next t) :
    PwmInv t := by
  cases e with
  | reset => exact pwmInv_of_next h ((pwmInv_resetWith s.cfg (s.draw + 1)).of_regs rfl rfl)
  | boot => exact pwmInv_bootEvent hs h
  | rx b => exact pwmInv_exec hs h
  | tick => exact pwmInv_of_next h (hs.of_regs rfl rfl)
  | loop => exact pwmInv_loopEvent hs h

/-- Dropping the head of the schedule keeps the invariant, and so does the event that is then run. -/
theorem pwmInv_step {s t : State} (hs : PwmInv s) (h : step s = .next t) : PwmInv t := by
  have hsched : ∀ rest, PwmInv { s with events := rest } := fun _ => hs.of_regs rfl rfl
  rcases step_cases s with ⟨e, rest, -, -, he⟩ | ⟨e, rest, -, -, he⟩ <;> rw [he] at h
  · exact pwmInv_runEvent (hsched rest) h
  · exact pwmInv_of_next h (hsched rest)

/-- Settles O57: `pwmInv_step` by the cases of a step, `pwmInv_exec` by the constructors of `Instr`. -/
theorem pwmInvariantIsKept : Obligations.PwmInvariantIsKept :=
  ⟨fun _ _ => pwmInv_step, fun _ _ _ => pwmInv_exec⟩

end Sys2Proof.Machine
end

section
/-! The hand-off between the receive handler and the main loop (20_memory.md R70). The handler's half rests on
what its two operations leave (`terminate_eq`, `advance_eq`), the loop's half on what a command and a ramp
check leave alone; one lemma for each clause of the protocol. -/

namespace Sys2Proof.Machine

/-! ## The receive handler -/

/-- Everything an `Rx` event that completes has done: its byte is handled as a terminator or as data. -/
theorem rxEvent_next {b : Byte} {s t : State} (h : rxEvent b s = .next t) :
    t = rearm (terminateLine (landing b s)) ∨ t = rearm (advanceIndex (landing b s)) := by
  rw [rxEvent, exec_decodeByte] at h
  split at h
  · exact .inl (receive_next h).2
  · exact .inr (receive_next h).2

theorem rxEvent_lineByte_other {b : Byte} {s t : State} (h : rxEvent b s = .next t) {a : Nat}
    (ha : a ≠ s.writeIndex) : t.lineByte a = s.lineByte a := by
  rcases rxEvent_next h with rfl | rfl
  · exact terminate_lineByte_other b s ha
  · exact advance_lineByte_other b s ha

theorem rxEvent_writeIndex {b : Byte} {s t : State} (h : rxEvent b s = .next t) :
    t.writeIndex = 0 ∨ t.writeIndex = s.writeIndex + 1 := by
  rcases rxEvent_next h with rfl | rfl
  · exact .inl rfl
  · exact ite_eq_or_eq (s.writeIndex + 1 = s.cfg.cap) 0 (s.writeIndex + 1)

theorem rxEvent_lineReady {b : Byte} {s t : State} (h : rxEvent b s = .next t) :
    t.lineReady = true ∨ t.lineReady = s.lineReady := by
  rcases rxEvent_next h with rfl | rfl
  · exact .inl rfl
  · exact .inr rfl

/-- An operation that does not read the flag makes a byte's whole handling not read it: neither the
landing, nor the re-arm, nor the check of the index does. -/
theorem receive_ignores_lineReady (b : Byte) {op : State → State}
    (hop : ∀ (u : State) (r : Bool),
      { op { u with lineReady := r } with lineReady := false } = { op u with lineReady := false })
    (s : State) (r : Bool) :
    mapNext (fun t => { t with lineReady := false }) (receive b op { s with lineReady := r }) =
      mapNext (fun t => { t with lineReady := false }) (receive b op s) := by
  by_cases hw : s.writeIndex < s.cfg.cap
  · rw [receive_eq b op hw, receive_eq (s := { s with lineReady := r }) b op hw]
    exact congrArg (fun u => Host.Outcome.next (rearm u)) (hop (landing b s) r)
  · rw [receive_outside b op hw, receive_outside (s := { s with lineReady := r }) b op hw]

theorem rxEvent_ignores_lineReady (b : Byte) (s : State) (r : Bool) :
    mapNext (fun t => { t with lineReady := false }) (rxEvent b { s with lineReady := r }) =
      mapNext (fun t => { t with lineReady := false }) (rxEvent b s) := by
  rw [rxEvent, rxEvent, exec_decodeByte, exec_decodeByte]
  split
  · exact receive_ignores_lineReady b (fun _ _ => rfl) s r
  · exact receive_ignores_lineReady b (fun _ _ => rfl) s r

/-! ## The main loop -/

/-- A ramp check leaves the buffer, the index and the flag alone. -/
theorem rampCheck_receiver_frame {s t : State} (h : rampCheck s = .next t) :
    t.lineBuf = s.lineBuf ∧ t.writeIndex = s.writeIndex ∧ t.lineReady = s.lineReady := by
  rw [rampCheck_frame h]
  exact ⟨rfl, rfl, rfl⟩

/-- A `Loop` leaves the buffer and the index alone and ends with the flag clear: TAKE clears it, and neither
the command of the line nor the ramp check touches the three. -/
theorem loopEvent_receiver_frame {s t : State} (h : loopEvent s = .next t) :
    t.lineBuf = s.lineBuf ∧ t.writeIndex = s.writeIndex ∧ t.lineReady = false := by
  rcases loopEvent_next h with ⟨hidle, hramp⟩ | ⟨L, u, -, -, hexec, hramp⟩
  · obtain ⟨hbuf, hidx, hflag⟩ := rampCheck_receiver_frame hramp
    exact ⟨hbuf, hidx, hflag.trans hidle⟩
  · obtain ⟨hbyte, htake, -⟩ := isCommand_not_byte (decodeLine_isCommand L)
    obtain ⟨hbuf, hidx, hflag, -⟩ := exec_receiver_frame hbyte htake hexec
    obtain ⟨hbuf', hidx', hflag'⟩ := rampCheck_receiver_frame hramp
    exact ⟨hbuf'.trans hbuf, hidx'.trans hidx, hflag'.trans hflag⟩

theorem loopEvent_sameMemory {s t : State} (h : loopEvent s = .next t) : SameMemory s t := by
  obtain ⟨hbuf, -, -⟩ := loopEvent_receiver_frame h
  obtain ⟨_, hgrew⟩ := loopEvent_grew h
  exact lineByte_congr hbuf hgrew.draw

theorem loopEvent_idle {s : State} (h : s.lineReady = false) : loopEvent s = rampCheck s := by
  rw [loopEvent, takeLine_idle h]

/-- Whether the ramp fires and which row it selects are read from the tick and the duties. -/
theorem rampCheck_ignores_buffer (s : State) (m : Memory) (w : Nat) :
    rampCheck { s with lineBuf := m, writeIndex := w } =
      mapNext (fun t => { t with lineBuf := m, writeIndex := w }) (rampCheck s) := by
  by_cases hdue : rampIntervalMs ≤ elapsed s
  · rw [rampCheck_fires hdue, rampCheck_fires (s := { s with lineBuf := m, writeIndex := w }) hdue,
      exec_rampSelect, exec_rampSelect, mapNext_next]
    split
    · rfl
    · split
      · rfl
      · rfl
  · rw [rampCheck_idle hdue, rampCheck_idle (s := { s with lineBuf := m, writeIndex := w }) hdue,
      mapNext_next]

theorem loopEvent_ignores_buffer {s : State} (h : s.lineReady = false) (m : Memory) (w : Nat) :
    loopEvent { s with lineBuf := m, writeIndex := w } =
      mapNext (fun t => { t with lineBuf := m, writeIndex := w }) (loopEvent s) := by
  rw [loopEvent_idle h, loopEvent_idle (s := { s with lineBuf := m, writeIndex := w }) h]
  exact rampCheck_ignores_buffer s m w

/-- Settles O23: what `Rx` writes, that it does not read the flag, what `Loop` leaves alone, and that
without a ready line it reads neither the buffer nor the index. -/
theorem handOffProtocolIsKept : Obligations.HandOffProtocolIsKept :=
  ⟨fun _ _ _ h => ⟨fun _ => rxEvent_lineByte_other h, rxEvent_writeIndex h, rxEvent_lineReady h⟩,
    rxEvent_ignores_lineReady,
    fun _ _ h => ⟨loopEvent_sameMemory h, loopEvent_receiver_frame h⟩,
    fun _ m w h => loopEvent_ignores_buffer h m w⟩

end Sys2Proof.Machine
end

section
/-! The line decoder as its five patterns and the default (30_encoding.md R95), and the two properties of the
operand parser that the source forces (R98). -/

namespace Sys2Proof

/-! ## The patterns -/

/-- Everything the line decoder can do: one of the two prefixes selects its command, or neither stands
there and the exact patterns decide. -/
theorem decodeLine_cases (L : Text) :
    (∃ T, L = kwSet ++ T ∧ decodeLine L = .set (parseInt T)) ∨
    (∃ T, L = kwFreq ++ T ∧ decodeLine L = .freq (parseInt T)) ∨
    ((¬ ∃ T, L = kwSet ++ T) ∧ (¬ ∃ T, L = kwFreq ++ T) ∧ decodeLine L = decodeExact L) := by
  by_cases hset : ∃ T, L = kwSet ++ T
  · obtain ⟨T, rfl⟩ := hset
    exact .inl ⟨T, rfl, decodeLine_set T⟩
  · by_cases hfreq : ∃ T, L = kwFreq ++ T
    · obtain ⟨T, rfl⟩ := hfreq
      exact .inr (.inl ⟨T, rfl, decodeLine_freq T⟩)
    · exact .inr (.inr ⟨hset, hfreq, decodeLine_exact hset hfreq⟩)

/-- A command without an operand is decoded exactly when neither prefix stands there and the exact
patterns give it. -/
theorem decodeLine_eq_iff {L : Text} {i : Instr} (hset : ∀ v, i ≠ .set v) (hfreq : ∀ f, i ≠ .freq f) :
    decodeLine L = i ↔
      (¬ ∃ T, L = kwSet ++ T) ∧ (¬ ∃ T, L = kwFreq ++ T) ∧ decodeExact L = i := by
  rcases decodeLine_cases L with ⟨T, hL, hd⟩ | ⟨T, hL, hd⟩ | ⟨hns, hnf, hd⟩ <;> rw [hd]
  · exact ⟨fun h => absurd h.symm (hset _), fun ⟨hns, _, _⟩ => absurd ⟨T, hL⟩ hns⟩
  · exact ⟨fun h => absurd h.symm (hfreq _), fun ⟨_, hnf, _⟩ => absurd ⟨T, hL⟩ hnf⟩
  · exact ⟨fun h => ⟨hns, hnf, h⟩, fun ⟨_, _, h⟩ => h⟩

/-- Everything the exact patterns can do. -/
theorem decodeExact_cases (L : Text) :
    (L = kwStart ∧ decodeExact L = .start) ∨ (L = kwStop ∧ decodeExact L = .stop) ∨
    (L = kwStatus ∧ decodeExact L = .status) ∨
    (L ≠ kwStart ∧ L ≠ kwStop ∧ L ≠ kwStatus ∧ decodeExact L = .unknown) := by
  by_cases hstart : L = kwStart
  · exact .inl ⟨hstart, hstart ▸ rfl⟩
  · by_cases hstop : L = kwStop
    · exact .inr (.inl ⟨hstop, hstop ▸ rfl⟩)
    · by_cases hstatus : L = kwStatus
      · exact .inr (.inr (.inl ⟨hstatus, hstatus ▸ rfl⟩))
      · exact .inr (.inr (.inr ⟨hstart, hstop, hstatus, by simp [decodeExact, hstart, hstop, hstatus]⟩))

/-- An exact pattern that matches is the line's own code. -/
theorem encode_decodeExact {L : Text} (h : decodeExact L ≠ .unknown) :
    encode (decodeExact L) = some (.line L) := by
  rcases decodeExact_cases L with ⟨rfl, -⟩ | ⟨rfl, -⟩ | ⟨rfl, -⟩ | ⟨-, -, -, hd⟩
  · rfl
  · rfl
  · rfl
  · exact absurd hd h

theorem decodeExact_eq_unknown_iff (L : Text) :
    decodeExact L = .unknown ↔ L ≠ kwStart ∧ L ≠ kwStop ∧ L ≠ kwStatus := by
  rcases decodeExact_cases L with ⟨rfl, -⟩ | ⟨rfl, -⟩ | ⟨rfl, -⟩ | ⟨hstart, hstop, hstatus, hd⟩
  · decide
  · decide
  · decide
  · exact ⟨fun _ => ⟨hstart, hstop, hstatus⟩, fun _ => hd⟩

/-- A line decodes to START, STOP or STATUS exactly when it is that command's code `K`. -/
theorem decodeLine_eq_iff_of_encode {K : Text} {i : Instr} (hset : ∀ v, i ≠ .set v)
    (hfreq : ∀ f, i ≠ .freq f) (hunknown : i ≠ .unknown) (hcode : encode i = some (.line K))
    (hdec : decodeLine K = i) (L : Text) : decodeLine L = i ↔ L = K := by
  constructor
  · intro h
    obtain ⟨-, -, rfl⟩ := (decodeLine_eq_iff hset hfreq).1 h
    exact Code.line.inj (Option.some.inj ((encode_decodeExact hunknown).symm.trans hcode))
  · rintro rfl
    exact hdec

theorem decodeLine_eq_unknown_iff (L : Text) :
    decodeLine L = .unknown ↔ (¬ ∃ T, L = kwSet ++ T) ∧ (¬ ∃ T, L = kwFreq ++ T) ∧
      L ≠ kwStart ∧ L ≠ kwStop ∧ L ≠ kwStatus := by
  rw [decodeLine_eq_iff (i := .unknown) nofun nofun, decodeExact_eq_unknown_iff]

/-- Settles O3: the prefixes, the exact words and the default, each by its lemma. -/
theorem decodeTakesTheFirstMatchingPattern : Obligations.DecodeTakesTheFirstMatchingPattern := by
  intro L
  refine ⟨?set, ?freq, ?start, ?stop, ?status, decodeLine_eq_unknown_iff L⟩
  case set => rintro T rfl; exact decodeLine_set T
  case freq => rintro T rfl; exact decodeLine_freq T
  case start => exact decodeLine_eq_iff_of_encode (i := .start) nofun nofun nofun rfl rfl L
  case stop => exact decodeLine_eq_iff_of_encode (i := .stop) nofun nofun nofun rfl rfl L
  case status => exact decodeLine_eq_iff_of_encode (i := .status) nofun nofun nofun rfl rfl L

/-! ## The operand parser -/

/-- P1 without a sign. -/
theorem parseInt_digits {D : Text} (hne : D ≠ []) (hD : ∀ b ∈ D, isDigit b = true) :
    parseInt D = (D.foldl digitStep 0 : Nat) := by
  cases D with
  | nil => exact absurd rfl hne
  | cons b D => rw [parseInt_digit b D (hD b List.mem_cons_self), digitsValue_digits _ _ hD]

/-- P1 with a minus sign. -/
theorem parseInt_minus_digits {D : Text} (hD : ∀ b ∈ D, isDigit b = true) :
    parseInt (0x2D :: D) = -((D.foldl digitStep 0 : Nat) : Int) := by
  rw [parseInt_minus, digitsValue_digits _ _ hD]

/-- P2: nothing is skipped, no sign is read, and reading the digits ends at the first byte. -/
theorem parseInt_no_integer {b : Byte} (T : Text) (hdigit : isDigit b = false) (hblank : isBlank b = false)
    (hminus : b ≠ 0x2D) (hplus : b ≠ 0x2B) : parseInt (b :: T) = 0 := by
  simp only [parseInt, skipBlanks, digitsValue, hdigit, hblank, hminus, hplus, Bool.false_eq_true, if_false,
    Int.natCast_zero]

theorem isBlank_eq_false {b : Byte} (hspace : b ≠ 0x20) (htab : b ≠ 0x09) (hvtab : b ≠ 0x0B)
    (hfeed : b ≠ 0x0C) : isBlank b = false := by
  simp only [isBlank, Bool.or_eq_false_iff, beq_eq_false_iff_ne]
  exact ⟨⟨⟨hspace, htab⟩, hvtab⟩, hfeed⟩

/-- Settles O4: the digits are read by `digitStep`, and a byte that begins no integer ends the reading at
once. -/
theorem parseIntHasTheTwoForcedProperties : Obligations.ParseIntHasTheTwoForcedProperties := by
  refine ⟨fun D hne hD => ?digits, rfl, fun b T hdigit hminus hplus hspace htab hvtab hfeed => ?other⟩
  case digits =>
    have hall : ∀ b ∈ D, isDigit b = true := fun b hb => (isDigit_iff b).2 (hD b hb)
    exact ⟨parseInt_digits hne hall, parseInt_minus_digits hall⟩
  case other =>
    have hnot : isDigit b = false := Bool.eq_false_iff.2 fun h => hdigit ((isDigit_iff b).1 h)
    exact parseInt_no_integer T hnot (isBlank_eq_false hspace htab hvtab hfeed) hminus hplus

end Sys2Proof
end

section
/-! The operand of FREQ on its way from the line to FREQ_HZ (30_encoding.md R100). -/

namespace Sys2Proof.Machine

theorem exec_freq_line (T : Text) (s : State) :
    exec (decodeLine (kwFreq ++ T)) s = .next (pwmSetFrequency (parseInt T) s) := by
  rw [decodeLine_freq]
  rfl

/-- An accepted frequency stands in FREQ_HZ without loss. -/
theorem pwmSetFrequency_freqHz {f : Int} (hlo : 1000 ≤ f) (hhi : f ≤ 50000) (s : State) :
    ((pwmSetFrequency f s).freqHz.toNat : Int) = f := by
  rw [pwmSetFrequency_accepted hlo hhi, setFrequencyAccepted_eq]
  exact toNat_ofInt_of_freqInRange hlo hhi

/-- Settles O30: the line runs `set_frequency` on the parsed operand itself, whose two cases are the two
clauses. -/
theorem freqOperandIsPassedUnclamped : Obligations.FreqOperandIsPassedUnclamped := by
  intro T s
  refine ⟨pwmSetFrequency (parseInt T) s, exec_freq_line T s, ?accepted, ?rejected⟩
  case accepted => exact fun hlo hhi => pwmSetFrequency_freqHz hlo hhi s
  case rejected =>
    intro hout
    rw [pwmSetFrequency_rejected hout]
    exact raise_eq .freqRangeError s

end Sys2Proof.Machine
end

section
/-! The line framer's share of the receiver's registers (40_line_framer.md): what a data byte stores (R124,
R125), and which instructions write LINE_READY (R129). -/

namespace Sys2Proof.Machine

theorem decodeByte_data {b : Byte} (hcr : b ≠ CR) (hlf : b ≠ LF) : decodeByte b = .rxData b :=
  (if_neg hcr).trans (if_neg hlf)

/-- Settles O17: the state a data byte leaves is `advance_eq`, whose index is the two cases of the wrap. -/
theorem dataByteIsStoredAndTheIndexWraps : Obligations.DataByteIsStoredAndTheIndexWraps := by
  intro b s hcr hlf hinside
  refine ⟨decodeByte_data hcr hlf, rearm (advanceIndex (landing b s)), receive_eq b advanceIndex hinside,
    advance_lineByte_same b s, fun a ha => advance_lineByte_other b s ha, ?wraps, ?advances, rfl⟩
  case wraps => exact fun hlast => if_pos hlast
  case advances => exact fun hroom => if_neg hroom

/-! ## Who writes LINE_READY -/

/-- The byte level has three rows (R90). -/
theorem format_eq_byte {i : Instr} (h : i.format = .BYTE) :
    (i = .rxCr ∨ i = .rxLf) ∨ ∃ b, i = .rxData b := by
  cases i with
  | rxCr => exact .inl (.inl rfl)
  | rxLf => exact .inl (.inr rfl)
  | rxData b => exact .inr ⟨b, rfl⟩
  | _ => cases h

theorem exec_terminator_lineReady {i : Instr} {s t : State} (hi : i = .rxCr ∨ i = .rxLf)
    (h : exec i s = .next t) : t.lineReady = true := by
  rcases hi with rfl | rfl
  · obtain ⟨-, rfl⟩ := receive_next (b := CR) h
    rfl
  · obtain ⟨-, rfl⟩ := receive_next (b := LF) h
    rfl

theorem exec_rxData_lineReady {b : Byte} {s t : State} (h : exec (.rxData b) s = .next t) :
    t.lineReady = s.lineReady := by
  obtain ⟨-, rfl⟩ := receive_next (b := b) h
  rfl

theorem exec_take_lineReady {s t : State} (h : exec .take s = .next t) : t.lineReady = false := by
  rw [show exec .take s = execTake s from rfl, execTake] at h
  rcases takeLine_cases s with ⟨hidle, he⟩ | ⟨L, -, -, he⟩ | ⟨-, -, he⟩ <;> rw [he] at h
  · exact Host.Outcome.next.inj h ▸ hidle
  · exact Host.Outcome.next.inj h ▸ rfl
  · cases h

/-- Everything an instruction that completes can do to LINE_READY: a terminator sets it, TAKE
leaves it clear, and every other instruction leaves it as it was. -/
theorem exec_lineReady_cases {i : Instr} {s t : State} (h : exec i s = .next t) :
    ((i = .rxCr ∨ i = .rxLf) ∧ t.lineReady = true) ∨ (i = .take ∧ t.lineReady = false) ∨
      t.lineReady = s.lineReady := by
  by_cases hbyte : i.format = .BYTE
  · rcases format_eq_byte hbyte with hterm | ⟨b, rfl⟩
    · exact .inl ⟨hterm, exec_terminator_lineReady hterm h⟩
    · exact .inr (.inr (exec_rxData_lineReady h))
  · by_cases htake : i = .take
    · subst htake
      exact .inr (.inl ⟨rfl, exec_take_lineReady h⟩)
    · obtain ⟨-, -, hflag, -⟩ := exec_receiver_frame hbyte htake h
      exact .inr (.inr hflag)

theorem exec_sets_lineReady {i : Instr} {s t : State} (h : exec i s = .next t) (hs : s.lineReady = false)
    (ht : t.lineReady = true) : i = .rxCr ∨ i = .rxLf := by
  rcases exec_lineReady_cases h with ⟨hterm, -⟩ | ⟨-, hclear⟩ | hsame
  · exact hterm
  · exact absurd hclear (by simp [ht])
  · exact absurd hsame (by simp [hs, ht])

theorem exec_clears_lineReady {i : Instr} {s t : State} (h : exec i s = .next t) (hs : s.lineReady = true)
    (ht : t.lineReady = false) : i = .take := by
  rcases exec_lineReady_cases h with ⟨-, hset⟩ | ⟨htake, -⟩ | hsame
  · exact absurd hset (by simp [ht])
  · exact htake
  · exact absurd hsame (by simp [hs, ht])

/-- A byte row's whole handling reads LINE_READY nowhere, since neither of its two operations does. -/
theorem exec_byte_ignores_lineReady {i : Instr} (hbyte : i.format = .BYTE) (s : State) (r : Bool) :
    mapNext (fun t => { t with lineReady := false }) (exec i { s with lineReady := r }) =
      mapNext (fun t => { t with lineReady := false }) (exec i s) := by
  rcases format_eq_byte hbyte with (rfl | rfl) | ⟨b, rfl⟩
  · exact receive_ignores_lineReady CR (op := terminateLine) (fun _ _ => rfl) s r
  · exact receive_ignores_lineReady LF (op := terminateLine) (fun _ _ => rfl) s r
  · exact receive_ignores_lineReady b (op := advanceIndex) (fun _ _ => rfl) s r

/-- Settles O22: `exec_lineReady_cases` names who sets and who clears the flag, and a byte operation does
not read it. -/
theorem onlyTakeClearsTheReadyFlag : Obligations.OnlyTakeClearsTheReadyFlag :=
  ⟨fun _ _ _ h => ⟨exec_sets_lineReady h, exec_clears_lineReady h⟩,
    fun _ s r hbyte => exec_byte_ignores_lineReady hbyte s r⟩

end Sys2Proof.Machine
end

section
/-! The three lines of STATUS (41_command_dispatch.md R146). -/

namespace Sys2Proof.Machine

/-- Three replies in a row are contiguous in both logs and write nothing else (R12). -/
theorem emit_three (x y z : Text) (s : State) :
    emit z (emit y (emit x s)) =
      { s with
        txLog := s.txLog ++ (x ++ s.cfg.txEol) ++ (y ++ s.cfg.txEol) ++ (z ++ s.cfg.txEol)
        portLog := s.portLog ++
          [.tx (x ++ s.cfg.txEol), .tx (y ++ s.cfg.txEol), .tx (z ++ s.cfg.txEol)] } := by
  simp [emit, logPort]

/-- A reply writes none of the registers STATUS reports, so its later lines read the state it began in. -/
theorem exec_status (s : State) :
    exec .status s = .next (emit (replyState s.enabled) (emit (replyFreqIs s.freqHz.toNat)
      (emit (replyDuty s.dutyNow.toNat s.dutyTarget.toNat) s))) := rfl

/-- The third line is one of two whole texts. -/
theorem replyState_eq (on : Bool) :
    replyState on = if on then [0x53, 0x74, 0x61, 0x74, 0x65, 0x3A, 0x20, 0x4F, 0x4E]
      else [0x53, 0x74, 0x61, 0x74, 0x65, 0x3A, 0x20, 0x4F, 0x46, 0x46] := by
  cases on <;> rfl

/-- Settles O37: STATUS is three replies (`exec_status`), whose whole effect is `emit_three`. -/
theorem statusReportsThreeLines : Obligations.StatusReportsThreeLines := by
  intro s l1 l2 l3 h1 h2 h3
  have hduty : l1 = replyDuty s.dutyNow.toNat s.dutyTarget.toNat ++ s.cfg.txEol := h1
  have hfreq : l2 = replyFreqIs s.freqHz.toNat ++ s.cfg.txEol := h2
  have hstate : l3 = replyState s.enabled ++ s.cfg.txEol := by rw [h3, replyState_eq]
  rw [exec_status, emit_three, ← hduty, ← hfreq, ← hstate]

end Sys2Proof.Machine
end

section
/-! The facade's rows (42_pwm_facade.md). Each is one call of its operation, whose whole effect a lemma of
Laws/Ops.lean says; what is added here is which instructions call it, and what it does to the outputs and to
DUTY_TARGET. -/

namespace Sys2Proof.Machine

/-! ## Which instructions call an operation -/

/-- FREQ and the two rows of the facade are one operation (R143, log 12). -/
theorem exec_eq_pwmSetFrequency {i : Instr} {f : Int}
    (hi : i = .freq f ∨ i = .setFrequencyAccept f ∨ i = .setFrequencyReject f) (s : State) :
    exec i s = .next (pwmSetFrequency f s) := by
  rcases hi with rfl | rfl | rfl
  · rfl
  · rfl
  · rfl

theorem exec_eq_pwmStart {i : Instr} {announce : Bool}
    (hi : i = .facadeStart announce ∨ (i = .start ∧ announce = true)) (s : State) :
    exec i s = .next (pwmStart announce s) := by
  rcases hi with rfl | ⟨rfl, rfl⟩
  · rfl
  · rfl

theorem exec_eq_pwmStop {i : Instr} {announce : Bool}
    (hi : i = .facadeStop announce ∨ (i = .stop ∧ announce = true)) (s : State) :
    exec i s = .next (pwmStop announce s) := by
  rcases hi with rfl | ⟨rfl, rfl⟩
  · rfl
  · rfl

/-! ## set_frequency -/

/-- Settles O32: both instructions run `set_frequency`, whose rejected case raises FreqRangeError. -/
theorem rejectedFrequencyChangesNothing : Obligations.RejectedFrequencyChangesNothing := by
  intro i f s hi hout
  rw [exec_eq_pwmSetFrequency (hi.imp_right .inr), pwmSetFrequency_rejected hout]
  exact congrArg Host.Outcome.next (raise_eq .freqRangeError s)

theorem pwmStop_outputs (announce : Bool) (s : State) :
    (pwmStop announce s).enabled = false ∧ (pwmStop announce s).outEn = false := by
  rw [pwmStop_eq]
  exact ⟨rfl, rfl⟩

theorem setFrequencyAccepted_outputs (f : Int) (s : State) :
    (setFrequencyAccepted f s).enabled = true ∧ (setFrequencyAccepted f s).outEn = true := by
  rw [setFrequencyAccepted_eq]
  exact ⟨rfl, rfl⟩

/-- Settles O34: neither outcome of the outputs depends on the state the operation begins in. -/
theorem acceptedFrequencyRestartsAStoppedGenerator :
    Obligations.AcceptedFrequencyRestartsAStoppedGenerator := by
  intro i f s hi hlo hhi
  have hexec : ∀ u, exec i u = .next (setFrequencyAccepted f u) := fun u => by
    rw [exec_eq_pwmSetFrequency (hi.imp_right .inl), pwmSetFrequency_accepted hlo hhi]
  obtain ⟨hstop, hstopOut⟩ := pwmStop_outputs true s
  obtain ⟨hfreq, hfreqOut⟩ := setFrequencyAccepted_outputs f (pwmStop true s)
  exact ⟨⟨_, hexec s, setFrequencyAccepted_outputs f s⟩,
    _, _, _, rfl, hstop, hstopOut, hexec _, hfreq, hfreqOut, rfl, pwmStop_outputs true _⟩

/-! ## stop and the ramp -/

theorem rampCheck_completes (s : State) : ∃ t, rampCheck s = .next t := by
  rcases rampCheck_cases s with h | ⟨-, h⟩ | ⟨-, h⟩ | ⟨-, h⟩
  · exact ⟨_, h⟩
  · exact ⟨_, h⟩
  · exact ⟨_, h⟩
  · exact ⟨_, h⟩

/-- A ramp check reads neither the outputs nor the logs, and of these it writes the port log only. -/
theorem rampCheck_ignores_outputs {s u : State} (h : rampCheck s = .next u) (out en : Bool) (tx : Text)
    (ports : List PortAction) :
    ∃ ports', rampCheck { s with outEn := out, enabled := en, txLog := tx, portLog := ports } =
      .next { u with outEn := out, enabled := en, txLog := tx, portLog := ports' } := by
  by_cases hdue : rampIntervalMs ≤ elapsed s
  · rw [rampCheck_fires hdue, exec_rampSelect] at h
    rw [rampCheck_fires (s := { s with outEn := out, enabled := en, txLog := tx, portLog := ports }) hdue,
      exec_rampSelect]
    obtain rfl := Host.Outcome.next.inj h
    split
    · exact ⟨_, rfl⟩
    · split
      · exact ⟨_, rfl⟩
      · exact ⟨_, rfl⟩
  · rw [rampCheck_idle hdue] at h
    obtain rfl := Host.Outcome.next.inj h
    exact ⟨ports, rampCheck_idle hdue⟩

/-- The ramp goes on after stop: the check it would have made before, with the outputs off. -/
theorem rampCheck_pwmStop {s u : State} (h : rampCheck s = .next u) (announce : Bool) :
    ∃ tx ports, rampCheck (pwmStop announce s) =
      .next { u with outEn := false, enabled := false, txLog := tx, portLog := ports } := by
  rw [pwmStop_eq]
  exact ⟨_, rampCheck_ignores_outputs h false false _ _⟩

/-- Settles O36: what stop leaves is `pwmStop_eq`, and a ramp check reads nothing that stop writes. -/
theorem stopDisablesTheOutputsAndTheRampGoesOn : Obligations.StopDisablesTheOutputsAndTheRampGoesOn := by
  intro i announce s hi
  obtain ⟨u, hu⟩ := rampCheck_completes s
  obtain ⟨tx, ports, hv⟩ := rampCheck_pwmStop hu announce
  exact ⟨pwmStop announce s, exec_eq_pwmStop hi s, pwmStop_eq announce s, u, _, hu, hv,
    rfl, rfl, rfl, rfl, rfl, rfl, rfl⟩

/-! ## set_duty -/

/-- Settles O41: what set_duty leaves is `pwmSetDuty_eq`, and `d` is the clamped duty of R181. -/
theorem setDutyWritesOnePulseToAllChannels : Obligations.SetDutyWritesOnePulseToAllChannels := by
  intro duty d q s hd hq
  have hclamp : (clampDuty duty).val = d := by
    have := clampDuty_val duty
    omega
  refine ⟨⟨pwmSetDuty duty s, rfl, ?now, ?frame⟩, ?zero, ?full⟩
  case now => exact (dutyNow_toNat_of_clamp duty).trans hclamp
  case frame => rw [pwmSetDuty_eq, hclamp, ← hq]
  case zero =>
    rintro rfl
    obtain rfl : d = 0 := by omega
    rw [hq, Nat.zero_mul, Nat.zero_div]
  case full =>
    rintro rfl
    obtain rfl : d = 100 := by omega
    rw [hq, Nat.mul_div_cancel_left _ (by decide)]

/-! ## set_target -/

theorem pwmSetTarget_dutyTarget (d : Fin 101) (s : State) : (pwmSetTarget d s).dutyTarget.toNat = d.val := by
  have hlt : d.val < 2 ^ 7 := d.isLt.trans (by decide)
  exact (BitVec.toNat_ofNat d.val 7).trans (Nat.mod_eq_of_lt hlt)

@[simp] theorem pwmStart_dutyTarget (announce : Bool) (s : State) :
    (pwmStart announce s).dutyTarget = s.dutyTarget := by
  rw [pwmStart_eq]

@[simp] theorem pwmStop_dutyTarget (announce : Bool) (s : State) :
    (pwmStop announce s).dutyTarget = s.dutyTarget := by
  rw [pwmStop_eq]

@[simp] theorem pwmSetFrequency_dutyTarget (f : Int) (s : State) :
    (pwmSetFrequency f s).dutyTarget = s.dutyTarget := by
  obtain ⟨_, _, _, _, _, _, _, _, _, _, he⟩ := pwmSetFrequency_frame f s
  rw [he]

theorem exec_byte_dutyTarget {i : Instr} {s t : State} (hbyte : i.format = .BYTE)
    (h : exec i s = .next t) : t.dutyTarget = s.dutyTarget := by
  rcases format_eq_byte hbyte with (rfl | rfl) | ⟨b, rfl⟩
  · obtain ⟨-, rfl⟩ := receive_next (b := CR) h
    rfl
  · obtain ⟨-, rfl⟩ := receive_next (b := LF) h
    rfl
  · obtain ⟨-, rfl⟩ := receive_next (b := b) h
    rfl

theorem exec_take_dutyTarget {s t : State} (h : exec .take s = .next t) : t.dutyTarget = s.dutyTarget := by
  rw [show exec .take s = execTake s from rfl, execTake] at h
  rcases takeLine_cases s with ⟨-, he⟩ | ⟨L, -, -, he⟩ | ⟨-, -, he⟩ <;> rw [he] at h
  · exact Host.Outcome.next.inj h ▸ rfl
  · exact Host.Outcome.next.inj h ▸ rfl
  · cases h

/-- Everything an instruction that completes can do to DUTY_TARGET: SET and set_target write it, and every
other instruction leaves it as it was. -/
theorem exec_dutyTarget_cases {i : Instr} {s t : State} (h : exec i s = .next t) :
    ((∃ v, i = .set v) ∨ ∃ d, i = .setTarget d) ∨ t.dutyTarget = s.dutyTarget := by
  have same : ∀ {u : State}, (.next u : Host.Outcome State Fault Refusal) = .next t →
      u.dutyTarget = s.dutyTarget → t.dutyTarget = s.dutyTarget := fun hu hd =>
    Host.Outcome.next.inj hu ▸ hd
  cases i with
  | set v => exact .inl (.inl ⟨v, rfl⟩)
  | setTarget d => exact .inl (.inr ⟨d, rfl⟩)
  | freq f => exact .inr (same h (pwmSetFrequency_dutyTarget f s))
  | start => exact .inr (same h (pwmStart_dutyTarget true s))
  | stop => exact .inr (same h (pwmStop_dutyTarget true s))
  | status => exact .inr (same h rfl)
  | unknown => exact .inr (same h rfl)
  | rxCr => exact .inr (exec_byte_dutyTarget rfl h)
  | rxLf => exact .inr (exec_byte_dutyTarget rfl h)
  | rxData b => exact .inr (exec_byte_dutyTarget rfl h)
  | rampUp => exact .inr (same h rfl)
  | rampDown => exact .inr (same h rfl)
  | rampHold => exact .inr (same h rfl)
  | rearm => exact .inr (same h rfl)
  | take => exact .inr (exec_take_dutyTarget h)
  | facadeStart announce => exact .inr (same h (pwmStart_dutyTarget announce s))
  | facadeStop announce => exact .inr (same h (pwmStop_dutyTarget announce s))
  | setDuty duty => exact .inr (same h rfl)
  | setFrequencyAccept f => exact .inr (same h (pwmSetFrequency_dutyTarget f s))
  | setFrequencyReject f => exact .inr (same h (pwmSetFrequency_dutyTarget f s))

/-- Settles O42: set_target's effect is its definition, and `exec_dutyTarget_cases` names the writers. -/
theorem onlySetChangesTheTarget : Obligations.OnlySetChangesTheTarget :=
  ⟨fun d s => ⟨pwmSetTarget d s, rfl, pwmSetTarget_dutyTarget d s, rfl⟩,
    fun _ _ _ h hchanged => (exec_dutyTarget_cases h).resolve_right hchanged⟩

/-! ## start -/

/-- Settles O35: both instructions run `start`, whose whole effect is `pwmStart_eq` whatever ENABLED was. -/
theorem startEnablesTheOutputs : Obligations.StartEnablesTheOutputs := by
  intro i announce s hi
  rw [exec_eq_pwmStart hi]
  exact congrArg Host.Outcome.next (pwmStart_eq announce s)

end Sys2Proof.Machine
end

section
/-! The ramp scheduler (43_ramp_scheduler.md). The two stepping rows are one firing, a sample of the tick and a
`set_duty` whose operand the comparison keeps within 0..100, so that the clamp of R181 does nothing. -/

namespace Sys2Proof.Machine

/-! ## The stepping rows -/

theorem rampSelect_below {s : State} (h : s.dutyNow.toNat < s.dutyTarget.toNat) : rampSelect s = .rampUp :=
  if_pos h

theorem rampSelect_above {s : State} (h : s.dutyTarget.toNat < s.dutyNow.toNat) :
    rampSelect s = .rampDown :=
  (if_neg h.not_gt).trans (if_pos h)

/-- A firing that sets a duty in range stores it without loss, and writes the three pulses of it, the
sampled tick and nothing else. -/
theorem firing_setDuty {v : Int} {d q : Nat} {s t : State} (hv : v = d) (hd : d ≤ 100)
    (hq : q = d * s.period / 100) (ht : t = pwmSetDuty v (markFiring s)) :
    t.dutyNow.toNat = d ∧ SameMemory s t ∧
      t = { s with dutyNow := t.dutyNow, pulse1 := q, pulse2 := q, pulse3 := q,
                   lastStepTick := t.lastStepTick, portLog := s.portLog ++ [.setPulse q q q] } := by
  subst hv ht
  have hclamp : (clampDuty (d : Int)).val = d := clampDuty_natCast d hd
  refine ⟨?stored, fun _ => rfl, ?frame⟩
  case stored => exact (dutyNow_toNat_of_clamp d).trans hclamp
  case frame =>
    rw [pwmSetDuty_eq, hclamp, markFiring_period, ← hq]
    rfl

/-- Settles O44: the firing sets the duty above DUTY_NOW, which is at most the target and so in range. -/
theorem rampUpStepsTowardTheTarget : Obligations.RampUpStepsTowardTheTarget := by
  intro s q hbelow htarget hq
  have hrange : s.dutyNow.toNat + 1 ≤ 100 := by omega
  obtain ⟨hnow, hmem, hframe⟩ := firing_setDuty (Nat.cast_succ s.dutyNow.toNat).symm hrange hq rfl
  exact ⟨rampSelect_below hbelow, _, rfl, hnow, hnow.trans_le hbelow, hmem, hframe⟩

/-- Settles O45: the firing sets the duty below DUTY_NOW, which is positive, being above the target. -/
theorem rampDownStepsTowardTheTarget : Obligations.RampDownStepsTowardTheTarget := by
  intro s q habove hnow_le hq
  have hpos : 1 ≤ s.dutyNow.toNat := by omega
  have hrange : s.dutyNow.toNat - 1 ≤ 100 := by omega
  obtain ⟨hnow, hmem, hframe⟩ := firing_setDuty (Nat.cast_pred hpos).symm hrange hq rfl
  exact ⟨rampSelect_above habove, _, rfl, hnow, (Nat.le_sub_one_of_lt habove).trans_eq hnow.symm, hmem,
    hframe⟩

/-! ## The events outside the main loop -/

/-- What an `Rx` or a `Tick` event leaves alone (R202): PwmState, the backend picture, LAST_STEP_TICK and
TXLOG. -/
def SameOutsideReceiver (s t : State) : Prop :=
  pwmRegs t = pwmRegs s ∧ backendRegs t = backendRegs s ∧ t.lastStepTick = s.lastStepTick ∧ t.txLog = s.txLog

theorem rxEvent_sameOutsideReceiver {b : Byte} {s t : State} (h : rxEvent b s = .next t) :
    SameOutsideReceiver s t := by
  rcases rxEvent_next h with rfl | rfl
  · exact ⟨rfl, rfl, rfl, rfl⟩
  · exact ⟨rfl, rfl, rfl, rfl⟩

theorem tickEvent_sameOutsideReceiver {s t : State} (h : tickEvent s = .next t) :
    SameOutsideReceiver s t := by
  obtain rfl := Host.Outcome.next.inj h
  exact ⟨rfl, rfl, rfl, rfl⟩

/-- Taking the event off the schedule touches none of these either, whether it then happens or not. -/
theorem step_sameOutsideReceiver {s t : State} {e : Event} {rest : List Event} (he : s.events = e :: rest)
    (hkind : (∃ b, e = .rx b) ∨ e = .tick) (h : step s = .next t) : SameOutsideReceiver s t := by
  cases hen : enabledEvent e s with
  | true =>
    rw [step_enabled he hen] at h
    have hrun : SameOutsideReceiver { s with events := rest } t := by
      rcases hkind with ⟨b, rfl⟩ | rfl
      · exact rxEvent_sameOutsideReceiver (b := b) h
      · exact tickEvent_sameOutsideReceiver h
    exact hrun
  | false =>
    rw [step_disabled he hen] at h
    obtain rfl := Host.Outcome.next.inj h
    exact ⟨rfl, rfl, rfl, rfl⟩

/-- `s` with other PwmState and ramp registers: what an `Rx` event must not read (R202). -/
def withPwmAndTicks (now target : BitVec 7) (on : Bool) (freq : BitVec 16) (last tick : BitVec 32)
    (s : State) : State :=
  { s with dutyNow := now, dutyTarget := target, enabled := on, freqHz := freq, lastStepTick := last,
           tick := tick }

/-- A change of state that moves neither the index nor the capacity, and that a byte's handling inside the
buffer passes through, is one that the whole handling passes through. -/
theorem receive_comm {g : State → State} {op : State → State} {b : Byte} {s : State}
    (hindex : (g s).writeIndex = s.writeIndex) (hcap : (g s).cfg.cap = s.cfg.cap)
    (hop : rearm (op (landing b (g s))) = g (rearm (op (landing b s)))) :
    receive b op (g s) = mapNext g (receive b op s) := by
  by_cases hw : s.writeIndex < s.cfg.cap
  · have hw' : (g s).writeIndex < (g s).cfg.cap := by rwa [hindex, hcap]
    rw [receive_eq b op hw, receive_eq b op hw', hop, mapNext_next]
  · have hw' : ¬ (g s).writeIndex < (g s).cfg.cap := by rwa [hindex, hcap]
    rw [receive_outside b op hw, receive_outside b op hw', mapNext_fault]

theorem rxEvent_withPwmAndTicks (b : Byte) (s : State) (now target : BitVec 7) (on : Bool)
    (freq : BitVec 16) (last tick : BitVec 32) :
    rxEvent b (withPwmAndTicks now target on freq last tick s) =
      mapNext (withPwmAndTicks now target on freq last tick) (rxEvent b s) := by
  rw [rxEvent, rxEvent, exec_decodeByte, exec_decodeByte]
  split
  · exact receive_comm rfl rfl rfl
  · exact receive_comm rfl rfl rfl

/-- Settles O51: `step_sameOutsideReceiver`, and that a byte's handling passes through any change of PwmState
and of the ticks. -/
theorem onlyTheMainLoopTouchesPwmState : Obligations.OnlyTheMainLoopTouchesPwmState :=
  ⟨fun _ _ _ _ he hkind h => step_sameOutsideReceiver he hkind h, rxEvent_withPwmAndTicks⟩

end Sys2Proof.Machine
end

section
/-! The two errors of 60_exceptions.md. An error's whole effect is its reply at the end of both logs, and no
instruction reads a log, so what runs after it is what runs from the same state with empty logs. -/

namespace Sys2Proof.Machine

/-! ## What is sent from a state on -/

/-- `s` with nothing sent yet. -/
def withoutLogs (s : State) : State :=
  { s with txLog := [], portLog := [] }

theorem addLogs_withoutLogs (s : State) : addLogs s.txLog s.portLog (withoutLogs s) = s := by
  simp only [addLogs, withoutLogs, List.append_nil]

/-- What `s` had sent before is what `sentSince` takes off again. -/
theorem sentSince_addLogs (s t : State) : sentSince s (addLogs s.txLog s.portLog t) = t := by
  simp only [sentSince, addLogs, List.drop_left]

/-- Counted from where they start, instructions do what they do from empty logs. -/
theorem mapNext_sentSince_execAll (is : List Instr) (s : State) :
    mapNext (sentSince s) (execAll is s) = execAll is (withoutLogs s) := by
  have hruns : execAll is s = mapNext (addLogs s.txLog s.portLog) (execAll is (withoutLogs s)) := by
    rw [← execAll_addLogs, addLogs_withoutLogs]
  rw [hruns]
  cases execAll is (withoutLogs s) with
  | next t => exact congrArg Host.Outcome.next (sentSince_addLogs s t)
  | fault f => rfl
  | refused r => rfl

/-! ## Raising -/

/-- The instructions of R221 and R222 raise their error and do nothing else. -/
theorem exec_eq_raise {i : Instr}
    (hi : i = .unknown ∨ ∃ f, (f < 1000 ∨ 50000 < f) ∧ (i = .freq f ∨ i = .setFrequencyReject f))
    (s : State) : ∃ e, exec i s = .next (raise e s) := by
  rcases hi with rfl | ⟨f, hout, hi⟩
  · exact ⟨.cmdError, rfl⟩
  · refine ⟨.freqRangeError, ?_⟩
    rw [exec_eq_pwmSetFrequency (hi.imp_right .inr), pwmSetFrequency_rejected hout]

/-- An error touches nothing but the logs. -/
theorem withoutLogs_raise (e : CommandError) (s : State) : withoutLogs (raise e s) = withoutLogs s := by
  rw [raise_eq]
  rfl

/-- Settles O39: both runs are the run from empty logs, and there the error has left no trace. -/
theorem errorsDoNotAffectLaterInstructions : Obligations.ErrorsDoNotAffectLaterInstructions := by
  intro i s hi
  obtain ⟨e, hexec⟩ := exec_eq_raise hi s
  refine ⟨raise e s, hexec, fun js => ?_⟩
  rw [mapNext_sentSince_execAll, mapNext_sentSince_execAll, withoutLogs_raise]

end Sys2Proof.Machine
end

section
/-! The start banner (70_reset_and_hazards.md R252). Among the port log's actions it is counted as one text;
what an instruction adds to the log never holds it (`Grew.noBanner`), so only `Reset` and `Boot` move the
count. -/

namespace Sys2Proof.Machine

/-- The banner has been transmitted once if `Boot` has run since the last reset, and never otherwise. -/
def BannerInv (s : State) : Prop :=
  s.portLog.count (.tx (replyBanner ++ s.cfg.txEol)) = if s.booted then 1 else 0

theorem bannerInv_of_grew {s t : State} {acts : List PortAction} (hs : BannerInv s) (h : Grew s t acts) :
    BannerInv t := by
  have hnone : acts.count (.tx (replyBanner ++ s.cfg.txEol)) = 0 := List.count_eq_zero.2 h.noBanner
  unfold BannerInv at hs ⊢
  rw [h.cfg, h.booted, h.port, List.count_append, hnone, hs, Nat.add_zero]

/-- `Boot` adds the banner once: its other actions are no texts but PWM START. -/
theorem bannerInv_bootEvent {s t : State} (hs : BannerInv s) (hb : s.booted = false)
    (h : bootEvent s = .next t) : BannerInv t := by
  have hstart : replyStart ++ s.cfg.txEol ≠ replyBanner ++ s.cfg.txEol :=
    reply_ne_banner replyStart_ne s.cfg.txEol
  have hnever : s.portLog.count (.tx (replyBanner ++ s.cfg.txEol)) = 0 := by simpa [BannerInv, hb] using hs
  rw [bootEvent_eq] at h
  obtain rfl := Host.Outcome.next.inj h
  cases hn : s.cfg.nestedReplies with
  | false => simp [BannerInv, hnever]
  | true => simp [BannerInv, hnever, hstart]

theorem bannerInv_runEvent {e : Event} {s t : State} (hs : BannerInv s) (hen : enabledEvent e s = true)
    (h : runEvent e s = .next t) : BannerInv t := by
  cases e with
  | reset => exact Host.Outcome.next.inj h ▸ rfl
  | boot => exact bannerInv_bootEvent hs (by simpa [enabledEvent] using hen) h
  | rx b =>
    obtain ⟨_, hgrew⟩ := exec_grew h
    exact bannerInv_of_grew hs hgrew
  | tick => exact Host.Outcome.next.inj h ▸ hs
  | loop =>
    obtain ⟨_, hgrew⟩ := loopEvent_grew h
    exact bannerInv_of_grew hs hgrew

/-- An event that is not enabled leaves no trace; one that is enabled keeps the count. -/
theorem bannerInv_step {s t : State} (hs : BannerInv s) (h : step s = .next t) : BannerInv t := by
  rcases step_cases s with ⟨e, rest, hen, -, he⟩ | ⟨e, rest, -, -, he⟩ <;> rw [he] at h
  · exact bannerInv_runEvent (s := { s with events := rest }) hs hen h
  · exact Host.Outcome.next.inj h ▸ hs

/-- The texts of `Boot` from an unbooted state. -/
theorem step_boot_txLog {s t : State} (hb : s.booted = false) (he : s.events.head? = some .boot)
    (h : step s = .next t) :
    t.txLog = s.txLog ++ ((if s.cfg.nestedReplies then replyStart ++ s.cfg.txEol else []) ++
      (replyBanner ++ s.cfg.txEol)) := by
  obtain ⟨rest, hevents⟩ := List.head?_eq_some_iff.1 he
  have hen : enabledEvent .boot s = true := by simp [enabledEvent, hb]
  have hrun : bootEvent { s with events := rest } = .next t := (step_enabled hevents hen).symm.trans h
  rw [bootEvent_eq] at hrun
  exact Host.Outcome.next.inj hrun ▸ rfl

/-- Settles O14: `bannerInv_step` by the cases of a step, and what `Boot` transmits is `step_boot_txLog`. -/
theorem bannerIsSentOncePerReset : Obligations.BannerIsSentOncePerReset := by
  refine ⟨fun _ _ => bannerInv_step, fun s t hb htx he h => ?_⟩
  rw [step_boot_txLog hb he h, htx]
  rfl

end Sys2Proof.Machine
end

section
/-! The order of the backend calls in a change of frequency (70_reset_and_hazards.md R265). -/

namespace Sys2Proof.Machine

/-- Settles O33: `pwmSetFrequency_grew` lists what FREQ adds to the port log in each of its two cases; what
is no backend call there is a reply. -/
theorem frequencyChangeKeepsTheSafeOrder : Obligations.FrequencyChangeKeepsTheSafeOrder := by
  intro f s t h
  rw [exec_eq_pwmSetFrequency (.inl rfl)] at h
  obtain rfl := Host.Outcome.next.inj h
  obtain ⟨acts, hgrew, hacts⟩ := pwmSetFrequency_grew f s
  refine ⟨acts.filter PortAction.isBackend, by rw [hgrew.port, List.filter_append], ?accepted, ?rejected⟩
  case accepted =>
    intro hlo hhi
    rcases hacts with ⟨-, -, p, q, rfl⟩ | ⟨hout, -⟩
    · refine ⟨p, q, ?_⟩
      cases s.cfg.nestedReplies with
      | false => rfl
      | true => rfl
    · omega
  case rejected =>
    intro hout
    rcases hacts with ⟨hlo, hhi, -⟩ | ⟨-, rfl⟩
    · omega
    · rfl

end Sys2Proof.Machine
end

section
/-! Decoding what `encode` wrote (30_encoding.md R90 to R94), the integer parser where the source leaves it to
decision D7 (R97), and the decimal spelling (decision D18). -/

namespace Sys2Proof

/-! ## Decoding an encoded instruction -/

theorem decode_line_eq_ok_iff {L : Text} {i : Instr} :
    decode (.line L) = .ok i ↔ isLineText L = true ∧ decodeLine L = i := by
  cases h : isLineText L with
  | false => simp [decode, h]
  | true => simp [decode, h]

theorem decodeLine_set_decInt (v : Int) : decodeLine (kwSet ++ decInt v) = .set v := by
  rw [decodeLine_set, parseInt_decInt]

theorem decodeLine_freq_decInt (f : Int) : decodeLine (kwFreq ++ decInt f) = .freq f := by
  rw [decodeLine_freq, parseInt_decInt]

/-- An operand byte of RX.DATA is no terminator, so its byte decodes to it and to neither terminator row. -/
theorem decodeByte_of_wf {b : Byte} (h : (Instr.rxData b).wf = true) : decodeByte b = .rxData b := by
  have hne : b ≠ 0x0D ∧ b ≠ 0x0A := by simpa [Instr.wf] using h
  exact Machine.decodeByte_data hne.1 hne.2

/-- The code of a well-formed instruction is decoded to the instruction: a line because its text is one
(R91) and its keyword and operand are read back, a byte by its class. -/
theorem decode_encode {i : Instr} (hwf : i.wf = true) {c : Code} (h : encode i = some c) :
    decode c = .ok i := by
  cases i with
  | set v =>
    obtain rfl := Option.some.inj h
    exact decode_line_eq_ok_iff.2 ⟨Laws.CodeIsLineText.set v hwf _ rfl, decodeLine_set_decInt v⟩
  | freq f =>
    obtain rfl := Option.some.inj h
    exact decode_line_eq_ok_iff.2 ⟨Laws.CodeIsLineText.freq f hwf _ rfl, decodeLine_freq_decInt f⟩
  | start => exact Option.some.inj h ▸ rfl
  | stop => exact Option.some.inj h ▸ rfl
  | status => exact Option.some.inj h ▸ rfl
  | unknown => exact Option.some.inj h ▸ rfl
  | rxCr => exact Option.some.inj h ▸ rfl
  | rxLf => exact Option.some.inj h ▸ rfl
  | rxData b =>
    obtain rfl := Option.some.inj h
    exact congrArg Except.ok (decodeByte_of_wf hwf)
  | _ => cases h

/-- R110, R111: the formats without a code are RAMP and INTERNAL. -/
theorem encode_eq_none_iff (i : Instr) : encode i = none ↔ i.format = .RAMP ∨ i.format = .INTERNAL := by
  cases i <;> simp [encode, Instr.format]

/-- Settles O2: `decode_encode` by the constructors of `Instr`, and which of them have no code. -/
theorem decodingAnEncodedInstructionGivesItBack : Obligations.DecodingAnEncodedInstructionGivesItBack :=
  fun i hwf => ⟨fun _ => decode_encode hwf, encode_eq_none_iff i⟩

/-- Settles O1: closed words, by evaluation of the decoder. -/
theorem tableWordsDecodeToTheirRows : Obligations.TableWordsDecodeToTheirRows := by
  unfold Obligations.TableWordsDecodeToTheirRows
  decide

/-! ## What the parser leaves unread -/

theorem isDigit_eq_false {b : Byte} (h : ¬ (0x30 ≤ b.toNat ∧ b.toNat ≤ 0x39)) : isDigit b = false :=
  Bool.eq_false_iff.2 fun hd => h ((isDigit_iff b).1 hd)

/-- Digits before a byte that is no digit have the value they have alone. -/
theorem digitsValue_append_stop {D : Text} {b : Byte} (T : Text) (hD : ∀ d ∈ D, isDigit d = true)
    (hb : isDigit b = false) : digitsValue 0 (D ++ b :: T) = digitsValue 0 D := by
  rw [digitsValue_stop D b T 0 hD hb, digitsValue_digits D 0 hD]

/-- A text that begins with a digit is its digits' value; no blank and no sign stands before them. -/
theorem parseInt_append_of_digits {D : Text} (T : Text) (hne : D ≠ []) (hD : ∀ d ∈ D, isDigit d = true) :
    parseInt (D ++ T) = digitsValue 0 (D ++ T) := by
  cases D with
  | nil => exact absurd rfl hne
  | cons d D => exact parseInt_digit d (D ++ T) (hD d List.mem_cons_self)

theorem parseInt_of_digits {D : Text} (hne : D ≠ []) (hD : ∀ d ∈ D, isDigit d = true) :
    parseInt D = digitsValue 0 D := by
  simpa using parseInt_append_of_digits [] hne hD

/-- A sign, either of the two, with no digits' value after it. -/
theorem parseInt_sign_zero {sign : Byte} (hsign : sign = 0x2D ∨ sign = 0x2B) {T : Text}
    (hT : digitsValue 0 T = 0) : parseInt (sign :: T) = 0 := by
  rcases hsign with rfl | rfl
  · rw [parseInt_minus, hT]; rfl
  · rw [parseInt_plus, hT]; rfl

/-- Settles O5: a blank is skipped, and the digits before the first other byte decide, whichever sign
stands before them. -/
theorem parseIntSkipsBlanksAndIgnoresTheRest : Obligations.ParseIntSkipsBlanksAndIgnoresTheRest := by
  refine ⟨fun b T hb => parseInt_blank b T ?blank, fun D b T hne hdigits hother => ?rest,
    fun D hne hdigits => ?plus, fun sign hsign => ⟨parseInt_sign_zero hsign rfl, fun b T hother => ?sign⟩⟩
  case blank =>
    rcases hb with rfl | rfl | rfl | rfl
    · rfl
    · rfl
    · rfl
    · rfl
  case rest =>
    have hD : ∀ d ∈ D, isDigit d = true := fun d hd => (isDigit_iff d).2 (hdigits d hd)
    have hvalue := digitsValue_append_stop T hD (isDigit_eq_false hother)
    have hread := parseInt_of_digits hne hD
    refine ⟨?_, ?_, ?_⟩
    · rw [parseInt_append_of_digits _ hne hD, hvalue, hread]
    · rw [parseInt_minus, parseInt_minus, hvalue]
    · rw [parseInt_plus, hvalue, hread]
  case plus =>
    have hD : ∀ d ∈ D, isDigit d = true := fun d hd => (isDigit_iff d).2 (hdigits d hd)
    rw [parseInt_plus, parseInt_of_digits hne hD]
  case sign =>
    exact parseInt_sign_zero hsign (digitsValue_append_stop (D := []) T nofun (isDigit_eq_false hother))

/-! ## The decimal spelling -/

/-- Settles O6: `dec_spec`, and the parser reads digits by the same `digitStep`. -/
theorem decIsTheMinimalDecimalSpelling : Obligations.DecIsTheMinimalDecimalSpelling := by
  intro n
  obtain ⟨hne, hall, -, hhead, hzero⟩ := dec_spec n
  refine ⟨hne, fun b hb => (isDigit_iff b).1 (hall b hb), ?_, hhead, hzero⟩
  rw [parseInt_of_digits hne hall, digitsValue_dec]

end Sys2Proof
end

section
/-! The line buffer and the framer's instructions one at a time (20_memory.md R67, R74, 40_line_framer.md). -/

namespace Sys2Proof.Machine

/-! ## The line text -/

/-- Settles O21: `lineTextFrom_some` and `lineTextFrom_none` from index 0 with the whole buffer in reach. -/
theorem lineTextIsTheBytesBelowTheFirstSentinel : Obligations.LineTextIsTheBytesBelowTheFirstSentinel := by
  intro s
  constructor
  · intro L
    simpa only [lineText, Nat.zero_add] using lineTextFrom_some s s.cfg.cap 0 L
  · simpa only [lineText, Nat.zero_add] using lineTextFrom_none s s.cfg.cap 0

theorem lineText_eq_some_iff {s : State} {L : Text} :
    lineText s = some L ↔ L.length < s.cfg.cap ∧ s.lineByte L.length = 0x00 ∧
      ∀ k (h : k < L.length), s.lineByte k = L[k] ∧ L[k] ≠ 0x00 :=
  (lineTextIsTheBytesBelowTheFirstSentinel s).1 L

theorem lineText_eq_none_iff {s : State} :
    lineText s = none ↔ ∀ k, k < s.cfg.cap → s.lineByte k ≠ 0x00 :=
  (lineTextIsTheBytesBelowTheFirstSentinel s).2

/-- A sentinel ends the line text there or before. -/
theorem lineText_of_sentinel {s : State} {k : Nat} (hk : k < s.cfg.cap) (hzero : s.lineByte k = 0x00) :
    ∃ L, lineText s = some L ∧ L.length ≤ k ∧ ∀ b ∈ L, b ≠ 0x00 := by
  obtain ⟨L, hL⟩ := Option.ne_none_iff_exists'.1 fun hnone => lineText_eq_none_iff.1 hnone k hk hzero
  obtain ⟨-, -, hbytes⟩ := lineText_eq_some_iff.1 hL
  refine ⟨L, hL, ?short, ?nonzero⟩
  case short =>
    by_contra hlt
    obtain ⟨hread, hne⟩ := hbytes k (by omega)
    exact hne (hread ▸ hzero)
  case nonzero =>
    intro b hb
    obtain ⟨j, hj, rfl⟩ := List.getElem_of_mem hb
    exact (hbytes j hj).2

/-! ## TAKE -/

theorem exec_take (s : State) : exec .take s = execTake s := rfl

/-- Settles O20: the three cases of `takeLine`, the last two told apart by a sentinel in the buffer. -/
theorem takeClearsTheFlagOrFaults : Obligations.TakeClearsTheFlagOrFaults := by
  intro s
  refine ⟨fun hidle => ?idle, fun hready ⟨k, hk, hzero⟩ => ?line, fun hready hnone => ?fault⟩
  case idle => rw [exec_take, execTake, takeLine_idle hidle]
  case line =>
    obtain ⟨L, hL, -⟩ := lineText_of_sentinel hk hzero
    rw [exec_take, execTake, takeLine_line hready hL]
  case fault => rw [exec_take, execTake, takeLine_fault hready (lineText_eq_none_iff.2 hnone)]

/-! ## The byte operations -/

/-- A byte row is one reception of R120, whose operation is that of its class. -/
theorem exec_byte_eq_receive {i : Instr} (h : i.format = .BYTE) :
    ∃ b op, (op = terminateLine ∨ op = advanceIndex) ∧ ∀ s, exec i s = receive b op s := by
  rcases format_eq_byte h with (rfl | rfl) | ⟨b, rfl⟩
  · exact ⟨CR, terminateLine, .inl rfl, fun _ => rfl⟩
  · exact ⟨LF, terminateLine, .inl rfl, fun _ => rfl⟩
  · exact ⟨b, advanceIndex, .inr rfl, fun _ => rfl⟩

theorem decodeByte_format (b : Byte) : (decodeByte b).format = .BYTE := by
  unfold decodeByte
  split
  · rfl
  · split
    · rfl
    · rfl

/-- Settles O18: a byte row is a reception, which checks its index. -/
theorem byteOperationStopsOnlyOutsideTheBuffer : Obligations.ByteOperationStopsOnlyOutsideTheBuffer := by
  intro i s hbyte
  obtain ⟨b, op, -, hexec⟩ := exec_byte_eq_receive hbyte
  rw [hexec]
  exact ⟨receive_outside b op, fun hinside => ⟨_, receive_eq b op hinside⟩⟩

theorem exec_terminator {i : Instr} {s : State} (hi : i = .rxCr ∨ i = .rxLf)
    (hinside : s.writeIndex < s.cfg.cap) : ∃ b, exec i s = .next (rearm (terminateLine (landing b s))) := by
  rcases hi with rfl | rfl
  · exact ⟨CR, receive_eq CR terminateLine hinside⟩
  · exact ⟨LF, receive_eq LF terminateLine hinside⟩

/-- Settles O16: the state a terminator leaves is `terminate_eq`, whichever of the two it is. -/
theorem terminatorEndsTheLine : Obligations.TerminatorEndsTheLine := by
  intro i s hi hinside
  obtain ⟨b, hexec⟩ := exec_terminator hi hinside
  exact ⟨_, hexec, terminate_lineByte_same b s, fun _ => terminate_lineByte_other b s, terminate_eq b s⟩

/-! ## The armed receive -/

theorem exec_decodeByte_rearms {b : Byte} {s t : State} (h : exec (decodeByte b) s = .next t) :
    t.rxArmed = true ∧ t.portLog = s.portLog ++ [.arm t.writeIndex] := by
  rcases rxEvent_next h with rfl | rfl
  · exact ⟨rfl, rfl⟩
  · exact ⟨rfl, rfl⟩

/-- The arming is `Boot`'s last action (decision D10). -/
theorem bootEvent_arms {s t : State} (h : bootEvent s = .next t) :
    t.rxArmed = true ∧ t.portLog.getLast? = some (.arm 0) := by
  obtain rfl := Host.Outcome.next.inj h
  exact ⟨rfl, List.getLast?_concat⟩

/-- Neither a command nor a ramp check arms or disarms the receiver. -/
theorem loopEvent_rxArmed {s t : State} (h : loopEvent s = .next t) : t.rxArmed = s.rxArmed := by
  have hramp : ∀ {u}, rampCheck u = .next t → t.rxArmed = u.rxArmed := fun hu => by rw [rampCheck_frame hu]
  rcases loopEvent_next h with ⟨-, hcheck⟩ | ⟨L, u, -, -, hexec, hcheck⟩
  · exact hramp hcheck
  · obtain ⟨hbyte, htake, hrearm⟩ := isCommand_not_byte (decodeLine_isCommand L)
    obtain ⟨-, -, -, harmed⟩ := exec_receiver_frame hbyte htake hexec
    exact (hramp hcheck).trans (harmed hrearm)

/-- After `Boot` a receive is armed between any two events (R126): `Boot` and every byte arm one, and the
other events leave it, but for `Reset`, after which `Boot` has not run. -/
theorem runEvent_armed {e : Event} {s t : State} (hen : enabledEvent e s = true)
    (hs : s.booted = true → s.rxArmed = true) (h : runEvent e s = .next t) (ht : t.booted = true) :
    t.rxArmed = true := by
  cases e with
  | reset =>
    obtain rfl := Host.Outcome.next.inj h
    cases ht
  | boot => exact (bootEvent_arms h).1
  | rx b => exact (exec_decodeByte_rearms h).1
  | tick =>
    obtain rfl := Host.Outcome.next.inj h
    exact hs hen
  | loop => exact (loopEvent_rxArmed h).trans (hs hen)

theorem step_armed {s t : State} (hs : s.booted = true → s.rxArmed = true) (h : step s = .next t)
    (ht : t.booted = true) : t.rxArmed = true := by
  rcases step_cases s with ⟨e, rest, hen, -, he⟩ | ⟨e, rest, -, -, he⟩ <;> rw [he] at h
  · exact runEvent_armed (s := { s with events := rest }) hen hs h ht
  · obtain rfl := Host.Outcome.next.inj h
    exact hs ht

/-- Settles O19: a byte's handling ends with the re-arm, `Boot` with the first arming, and `step_armed`. -/
theorem everyByteRearmsExactlyOnce : Obligations.EveryByteRearmsExactlyOnce := by
  refine ⟨fun _ => rfl, fun _ _ _ => exec_decodeByte_rearms, fun s t rest hb he h => ?boot,
    fun _ _ => step_armed⟩
  case boot =>
    rw [step_enabled he (by simp [enabledEvent, hb])] at h
    exact bootEvent_arms h

end Sys2Proof.Machine
end

section
/-! The five events one at a time: what enables them, what `Reset` and `Boot` leave, what a `Tick` does, and
what a `Loop` runs (44_main_loop.md R206 to R210, 70_reset_and_hazards.md R250 to R253). -/

namespace Sys2Proof.Machine

/-! ## Which events happen -/

/-- The three ways in which R207 does not enable an event. -/
theorem enabledEvent_eq_false {e : Event} {s : State}
    (h : (s.booted = false ∧ e ≠ .reset ∧ e ≠ .boot) ∨ (s.booted = true ∧ e = .boot) ∨
      (s.rxArmed = false ∧ ∃ b, e = .rx b)) : enabledEvent e s = false := by
  rcases h with ⟨hb, hreset, hboot⟩ | ⟨hb, rfl⟩ | ⟨ha, b, rfl⟩
  · cases e with
    | reset => exact absurd rfl hreset
    | boot => exact absurd rfl hboot
    | rx b => simp [enabledEvent, hb]
    | tick => exact hb
    | loop => exact hb
  · simp [enabledEvent, hb]
  · simp [enabledEvent, ha]

theorem enabledEvent_mainLoopEvent (s : State) : enabledEvent (mainLoopEvent s) s = true := by
  cases hb : s.booted with
  | false => simp [mainLoopEvent, enabledEvent, hb]
  | true => simp [mainLoopEvent, enabledEvent, hb]

/-- With nothing scheduled the step is that of the main loop's own event. -/
theorem step_mainLoop {s : State} (he : s.events = []) :
    step s = step { s with events := [mainLoopEvent s] } := by
  have hs : { s with events := [] } = s := he ▸ rfl
  have hen : enabledEvent (mainLoopEvent s) { s with events := [mainLoopEvent s] } = true :=
    enabledEvent_mainLoopEvent s
  rw [step_enabled (s := { s with events := [mainLoopEvent s] }) rfl hen, step_idle he]
  exact congrArg (runEvent (mainLoopEvent s)) hs.symm

/-- Settles O9: `step_disabled` in each case of `enabledEvent_eq_false`, and `step_mainLoop`. -/
theorem disabledEventsLeaveNoTrace : Obligations.DisabledEventsLeaveNoTrace :=
  ⟨fun _ _ _ he hcase => step_disabled he (enabledEvent_eq_false hcase), fun _ => step_mainLoop⟩

/-! ## Tick -/

/-- Settles O10: TICK is 32 bits, so its sum wraps there. -/
theorem tickAdvancesByOneAndTouchesNothingElse : Obligations.TickAdvancesByOneAndTouchesNothingElse := by
  intro s rest hb he
  exact ⟨s.tick + 1, BitVec.toNat_add s.tick 1, step_enabled he hb⟩

/-! ## Reset -/

theorem step_reset {s : State} {rest : List Event} (he : s.events = .reset :: rest) :
    step s = .next { State.resetWith s.cfg (s.draw + 1) with events := rest } :=
  step_enabled he rfl

/-- Before `Boot` no receive is armed, and nothing but `Boot` and `Reset` can happen. -/
theorem enabledEvent_unbooted {s : State} (hb : s.booted = false) (e : Event) :
    enabledEvent e s = true ↔ e = .reset ∨ e = .boot := by
  cases e <;> simp [enabledEvent, hb]

/-- Settles O11: the fields of the state `Reset` leaves, and `enabledEvent_unbooted`. -/
theorem resetRestoresTheDefaults : Obligations.ResetRestoresTheDefaults := fun _ _ he =>
  ⟨_, step_reset he, rfl, rfl, rfl, rfl, rfl, rfl, rfl, rfl, rfl, rfl, rfl, rfl, enabledEvent_unbooted rfl⟩

/-- Settles O12: `Reset` reads the configuration, the counter of resets and the schedule only. -/
theorem nothingPersistsAcrossReset : Obligations.NothingPersistsAcrossReset := by
  intro s t rest hs ht hcfg hdraw
  rw [step_reset hs, step_reset ht, hcfg, hdraw]

theorem framerInv_resetWith (cfg : Config) (draw : Nat) : FramerInv (State.resetWith cfg draw) where
  wf := rfl
  inside := nofun
  index := cfg.cap_pos

theorem backendInv_resetWith (cfg : Config) (draw : Nat) : BackendInv (State.resetWith cfg draw) where
  pulse1 := nofun
  pulse2 := nofun
  pulse3 := nofun
  period := nofun
  enabled := nofun
  armed := nofun
  unbooted := fun _ => rfl

/-- Settles O60: the reset values meet each invariant, and `State.reset` is the reset under CFG-A. -/
theorem resetMeetsTheInvariants : Obligations.ResetMeetsTheInvariants := fun cfg draw =>
  ⟨framerInv_resetWith cfg draw, pwmInv_resetWith cfg draw, backendInv_resetWith cfg draw,
    framerInv_resetWith _ _, pwmInv_resetWith _ _, backendInv_resetWith _ _⟩

/-! ## Boot -/

theorem step_boot {s : State} {rest : List Event} (hb : s.booted = false) (he : s.events = .boot :: rest) :
    step s = bootEvent { s with events := rest } :=
  step_enabled he (by simp [enabledEvent, hb])

/-- Settles O13: the whole effect of `Boot` is `bootEvent_eq`. -/
theorem bootProgramsTheDefaultsAndArms : Obligations.BootProgramsTheDefaultsAndArms := by
  intro s rest p q hb he hp hq
  subst hq hp
  rw [step_boot hb he, bootEvent_eq]
  simp only [List.cons_append, List.nil_append]
  rfl

/-- The last line of STATUS is the state of the outputs. -/
theorem exec_status_last {s u : State} (h : exec .status s = .next u) :
    u.portLog.getLast? = some (.tx (replyState s.enabled ++ s.cfg.txEol)) := by
  rw [exec_status] at h
  obtain rfl := Host.Outcome.next.inj h
  exact List.getLast?_concat

/-- Settles O15: what `Reset` and `Boot` leave in ENABLED and OUT_EN, and STATUS reports ENABLED last. -/
theorem statusAfterBootReportsOn : Obligations.StatusAfterBootReportsOn := by
  refine ⟨fun s t rest he h => ?reset, fun s rest hb he => ?boot⟩
  case reset =>
    rw [step_reset he] at h
    obtain rfl := Host.Outcome.next.inj h
    exact ⟨rfl, rfl⟩
  case boot =>
    rw [step_boot hb he, bootEvent_eq]
    exact ⟨_, _, rfl, rfl, rfl, rfl, exec_status_last rfl⟩

/-! ## Loop -/

theorem step_loop {s : State} {rest : List Event} (hb : s.booted = true) (he : s.events = .loop :: rest) :
    step s = loopEvent { s with events := rest } :=
  step_enabled he hb

theorem lineText_events (s : State) (rest : List Event) :
    lineText { s with events := rest } = lineText s :=
  lineText_congr rfl rfl rfl

theorem loopEvent_line {s : State} {L : Text} (hr : s.lineReady = true) (hL : lineText s = some L) :
    loopEvent s = andThen (exec (decodeLine L) { s with lineReady := false }) rampCheck := by
  rw [loopEvent, takeLine_line hr hL]
  rfl

/-- A `Loop` with a ready line takes it, runs its command, then checks the ramp (decision D6). -/
theorem step_loop_line {s : State} {L : Text} {rest : List Event} (hb : s.booted = true)
    (he : s.events = .loop :: rest) (hr : s.lineReady = true) (hL : lineText s = some L) :
    step s = andThen (exec (decodeLine L) { s with events := rest, lineReady := false }) rampCheck := by
  rw [step_loop hb he]
  exact loopEvent_line (s := { s with events := rest }) hr ((lineText_events s rest).trans hL)

/-- Settles O7: `step_enabled` for a byte; for a line `takeLine_line` and `step_loop_line`. -/
theorem stepRunsTheDecodedInstruction : Obligations.StepRunsTheDecodedInstruction := by
  refine ⟨fun s b rest hb ha he => ?byte, fun s L rest hb he hr hL => ⟨?take, step_loop_line hb he hr hL⟩⟩
  case byte =>
    have hen : enabledEvent (.rx b) s = true := by simp [enabledEvent, hb, ha]
    exact step_enabled he hen
  case take =>
    have hL' : lineText { s with events := rest } = some L := (lineText_events s rest).trans hL
    rw [exec_take, execTake, takeLine_line (s := { s with events := rest }) hr hL']

/-- A line that is no command is answered and gone; the `Loop` goes on to the ramp check. -/
theorem step_loop_unknown {s : State} {L : Text} {rest : List Event} (hb : s.booted = true)
    (he : s.events = .loop :: rest) (hr : s.lineReady = true) (hL : lineText s = some L)
    (hd : decodeLine L = .unknown) :
    step s = rampCheck (raise .cmdError { s with events := rest, lineReady := false }) := by
  rw [step_loop_line hb he hr hL, hd]
  rfl

/-- Settles O38: UNKNOWN's whole effect is its exception's reply. -/
theorem unknownLineIsAnsweredAndDiscarded : Obligations.UnknownLineIsAnsweredAndDiscarded :=
  ⟨rfl, fun s => congrArg Host.Outcome.next (raise_eq .cmdError s),
    fun _ _ _ hb he hr hL hd => step_loop_unknown hb he hr hL hd⟩

/-! ## The ramp check of a Loop without a line -/

/-- Settles O46: neither comparison holds at the target, and the row writes LAST_STEP_TICK only. -/
theorem rampHoldOnlySamplesTheTick : Obligations.RampHoldOnlySamplesTheTick := by
  intro s hat
  have hselect : rampSelect s = .rampHold := by simp [rampSelect, hat]
  exact ⟨hselect, rfl⟩

/-- The comparison of R110 with the case of equality in the middle. -/
theorem rampSelect_eq (s : State) :
    rampSelect s = if s.dutyNow.toNat < s.dutyTarget.toNat then .rampUp
      else if s.dutyNow.toNat = s.dutyTarget.toNat then .rampHold else .rampDown := by
  unfold rampSelect
  split
  · rfl
  · split
    · rw [if_neg (by omega)]
    · rw [if_pos (by omega)]

/-- Every firing completes and samples the tick (R194). -/
theorem rampSelect_fires (s : State) : ∃ t, exec (rampSelect s) s = .next t ∧ t.lastStepTick = s.tick := by
  refine ⟨_, exec_rampSelect s, ?_⟩
  split
  · rfl
  · split
    · rfl
    · rfl

/-- Settles O8: the two cases of the ramp check, by `interval_le_iff`. -/
theorem idleLoopFiresTheRampAtTheCadence : Obligations.IdleLoopFiresTheRampAtTheCadence := by
  intro s rest hb he hr
  have hstep : step s = rampCheck { s with events := rest } :=
    (step_loop hb he).trans (loopEvent_idle (s := { s with events := rest }) hr)
  refine ⟨fun hearly => ?waits, fun hdue => ?fires⟩
  case waits =>
    exact hstep.trans (rampCheck_idle fun hle => hearly.not_ge ((interval_le_iff _).1 hle))
  case fires =>
    have hfires := hstep.trans (rampCheck_fires ((interval_le_iff { s with events := rest }).2 hdue))
    refine ⟨hfires.trans ?_, ?_⟩
    · rw [rampSelect_eq]
    · rw [hfires]
      exact rampSelect_fires { s with events := rest }

end Sys2Proof.Machine
end

section
/-! Whole lines on the wire (40_line_framer.md section 5, 44_main_loop.md section 4, 70_reset_and_hazards.md
section 3). A run over data bytes is `run_data`; what is added here is its terminator, the command the line
then runs, and the bytes of the buffer that the run has not reached. -/

namespace Sys2Proof.Machine

/-! ## A line and its terminator -/

/-- A line of any length received from index 0, its terminator included: it is ready, its text is what has
been stored since the last wrap, and only the framer has moved. -/
theorem run_line {s : State} {D : Text} {e : Byte} {rest : List Event} (hb : s.booted = true)
    (ha : s.rxArmed = true) (hw : s.writeIndex = 0) (hD : ∀ b ∈ D, b ≠ 0x00 ∧ b ≠ 0x0D ∧ b ≠ 0x0A)
    (hterm : e = 0x0D ∨ e = 0x0A) (he : s.events = receiveAll D ++ .rx e :: rest) :
    ∃ t, runFor (D.length + 1) s = .next t ∧ t.events = rest ∧ t.rxArmed = true ∧ t.lineReady = true ∧
      t.writeIndex = 0 ∧ lineText t = some (D.drop (D.length / s.cfg.cap * s.cfg.cap)) ∧
      OnlyFramerMoved s t := by
  obtain ⟨u, hrun, hue, hua, -, hholds, hum⟩ :=
    run_data D s [] (.rx e :: rest) hb ha (Holds.nil hw) (fun b h => (hD b h).2) he
  have hcfg : u.cfg = s.cfg := by rw [hum]
  have hub : u.booted = true := by rw [hum]; exact hb
  have hinside : u.writeIndex < u.cfg.cap := hholds.index ▸ Nat.mod_lt _ u.cfg.cap_pos
  obtain ⟨t, hstep, hte, hta, htr, htw, hzero, hother, htm⟩ := step_terminator hub hua hinside hterm hue
  have htext := lineText_of_holds hholds (by rw [htm]) hzero hother fun b h => (hD b h).1
  refine ⟨t, ?_, hte, hta, htr, htw, hcfg ▸ htext, hum.trans htm⟩
  rw [run_add_of_next D.length 1 hrun, run_succ_of_next 0 hstep, runFor_zero]

/-- Settles O24: `run_line`, whose last clause is that only the framer has moved. -/
theorem lineOfDataBytesIsFramedToItsTail : Obligations.LineOfDataBytesIsFramedToItsTail := by
  intro s D e rest hb ha hw hD hterm he
  obtain ⟨t, hrun, hte, hta, htr, htw, htext, htm⟩ := run_line hb ha hw hD hterm he
  refine ⟨t, hrun, hte, htr, htw, hta, ?_, htext, ?_⟩
  · rw [htm]; exact hb
  · rw [htm]; exact ⟨rfl, rfl, rfl, rfl, rfl⟩

/-! ## A command on the wire -/

/-- The line a command is encoded as can be sent, and decodes to the command. -/
theorem encode_line {i : Instr} {L : Text} (hi : i.isCommand = true) (h : encode i = some (.line L)) :
    (∀ b ∈ L, b ≠ 0x00 ∧ b ≠ 0x0D ∧ b ≠ 0x0A) ∧ decodeLine L = i := by
  have hwf : i.wf = true := by
    cases i with
    | set | freq | start | stop | status | unknown => rfl
    | _ => cases hi
  obtain ⟨hline, hdecode⟩ := decode_line_eq_ok_iff.1 (decode_encode hwf h)
  exact ⟨(isLineText_iff L).1 hline, hdecode⟩

/-- Settles O25: the line fits, so nothing of it has been overwritten when the `Loop` takes it. -/
theorem sentCommandIsExecuted : Obligations.SentCommandIsExecuted := by
  intro s i L e rest hb ha hw hi hcode hfits hterm he
  obtain ⟨hL, hdecode⟩ := encode_line hi hcode
  obtain ⟨t, hrun, hte, hta, htr, htw, htext, htm⟩ := run_line hb ha hw hL hterm he
  have hwhole : lineText t = some L := by
    rw [htext, Nat.div_eq_of_lt hfits, Nat.zero_mul, List.drop_zero]
  have htb : t.booted = true := by rw [htm]; exact hb
  refine ⟨t, hrun, hte, htm, ?_⟩
  rw [step_loop_line htb hte htr hwhole, hdecode]

/-! ## Overwriting an untaken line -/

/-- Data bytes that do not reach the end of the buffer leave what lies above them alone. -/
theorem run_data_lineByte_above {D : Text} {s t : State} {rest : List Event} (hb : s.booted = true)
    (ha : s.rxArmed = true) (hroom : s.writeIndex + D.length < s.cfg.cap)
    (hD : ∀ b ∈ D, b ≠ 0x0D ∧ b ≠ 0x0A) (he : s.events = receiveAll D ++ rest)
    (hrun : runFor D.length s = .next t) {a : Nat} (habove : s.writeIndex + D.length ≤ a) :
    t.lineByte a = s.lineByte a := by
  induction D generalizing s with
  | nil => exact Host.Outcome.next.inj hrun ▸ rfl
  | cons b D ih =>
    rw [List.length_cons] at hroom habove hrun
    obtain ⟨hcr, hlf⟩ := hD b List.mem_cons_self
    obtain ⟨u, hstep, hue, hua, -, huw, -, hother, hum⟩ := step_data hb ha (by omega) hcr hlf he
    rw [if_neg (by omega)] at huw
    have hcfg : u.cfg = s.cfg := by rw [hum]
    have hub : u.booted = true := by rw [hum]; exact hb
    rw [run_succ_of_next _ hstep] at hrun
    rw [ih hub hua (by rw [huw, hcfg]; omega) (fun c hc => hD c (List.mem_cons_of_mem b hc)) hue hrun
      (by omega)]
    exact hother a (by omega)

/-- What stands in a buffer that reads `new` from index 0 on and, above it, still reads the line `old`. -/
theorem lineText_overwritten {s t : State} {old new : Text} (hold : lineText s = some old)
    (hle : new.length ≤ old.length) (hcfg : t.cfg = s.cfg) (hnew : ∀ b ∈ new, b ≠ 0x00)
    (hbelow : ∀ j (h : j < new.length), t.lineByte j = new[j])
    (habove : ∀ a, new.length ≤ a → t.lineByte a = s.lineByte a) :
    lineText t = some (new ++ old.drop new.length) := by
  obtain ⟨hfits, hzero, hbytes⟩ := lineText_eq_some_iff.1 hold
  have hlen : (new ++ old.drop new.length).length = old.length := by
    rw [List.length_append, List.length_drop]
    omega
  refine lineText_eq_some_iff.2 ⟨by rw [hlen, hcfg]; exact hfits, ?sentinel, fun k hk => ?byte⟩
  case sentinel => rw [hlen, habove _ hle, hzero]
  case byte =>
    by_cases hkn : k < new.length
    · rw [List.getElem_append_left hkn]
      exact ⟨hbelow k hkn, hnew _ (List.getElem_mem hkn)⟩
    · rw [hlen] at hk
      have hget : (new ++ old.drop new.length)[k] = old[k] := by
        rw [List.getElem_append_right (by omega), List.getElem_drop]
        congr 1
        omega
      rw [hget, habove k (by omega)]
      exact hbytes k hk

/-- Settles O26: the new bytes lie below the old line's tail, which the run has not reached. -/
theorem untakenLineIsOverwrittenFromItsStart : Obligations.UntakenLineIsOverwrittenFromItsStart := by
  intro s old new rest hb ha hw hold hle hnew he
  have hdata : ∀ b ∈ new, b ≠ 0x0D ∧ b ≠ 0x0A := fun b h => (hnew b h).2
  obtain ⟨hfits, -, -⟩ := lineText_eq_some_iff.1 hold
  have hroom : new.length < s.cfg.cap := by omega
  obtain ⟨t, hrun, hte, -, htr, hholds, htm⟩ := run_data new s [] rest hb ha (Holds.nil hw) hdata he
  have hcfg : t.cfg = s.cfg := by rw [htm]
  obtain ⟨hindex, hbytes⟩ := hholds
  rw [List.nil_append, hcfg, Nat.mod_eq_of_lt hroom] at hindex
  rw [List.nil_append, hcfg, Nat.mod_eq_of_lt hroom, Nat.div_eq_of_lt hroom, Nat.zero_mul] at hbytes
  refine ⟨t, hrun, hte, ?_, htr, hindex⟩
  refine lineText_overwritten hold hle hcfg (fun b h => (hnew b h).1) (fun j hj => ?below)
    (fun a habove => ?above)
  case below =>
    have hget := hbytes j hj
    rw [Nat.zero_add, List.getElem?_eq_getElem hj] at hget
    exact (Option.some.inj hget).symm
  case above => exact run_data_lineByte_above hb ha (by omega) hdata he hrun (by omega)

/-! ## Two terminators without a poll -/

theorem lineText_nil {s : State} (h : s.lineByte 0 = 0x00) : lineText s = some [] :=
  lineText_eq_some_iff.2 ⟨s.cfg.cap_pos, h, nofun⟩

/-- Settles O27: the second terminator is handled at index 0, where its sentinel makes the text empty. -/
theorem crLfWithoutAPollDestroysTheCommand : Obligations.CrLfWithoutAPollDestroysTheCommand := by
  intro s rest hb ha hw he
  obtain ⟨u, hcr, hue, hua, -, huw, -, -, hum⟩ := step_terminator hb ha hw (.inl rfl) he
  have hub : u.booted = true := by rw [hum]; exact hb
  obtain ⟨t, hlf, hte, -, htr, -, hzero, -, htm⟩ :=
    step_terminator hub hua (huw ▸ u.cfg.cap_pos) (.inr rfl) hue
  have hempty : lineText t = some [] := lineText_nil (huw ▸ hzero)
  have hmoved : OnlyFramerMoved s t := hum.trans htm
  have htb : t.booted = true := by rw [hmoved]; exact hb
  have hcfg : s.cfg = t.cfg := by rw [hmoved]
  refine ⟨t, ?run, htr, hempty, by rw [hmoved], ?loop⟩
  case run => rw [run_succ_of_next 1 hcr, run_succ_of_next 0 hlf, runFor_zero]
  case loop =>
    rw [step_loop_unknown htb hte htr hempty rfl, raise_eq, hcfg]
    rfl

end Sys2Proof.Machine
end

section
/-! What every step keeps (44_main_loop.md section 5, 10_state.md sections 2, 5 and 6): where it can stop, what it
does to the logs and the configuration, the framer's invariant and the backend picture. Each is shown for
every event, then for the step, which runs an event or drops one. -/

namespace Sys2Proof.Machine

/-! ## Where a step can stop -/

/-- A byte's handling stops at an index outside the buffer only (R67). -/
theorem rxEvent_cases (b : Byte) (s : State) :
    (∃ t, rxEvent b s = .next t) ∨ (¬ s.writeIndex < s.cfg.cap ∧ rxEvent b s = .fault .lineAddress) := by
  obtain ⟨b', op, -, hreceive⟩ := exec_byte_eq_receive (decodeByte_format b)
  rw [rxEvent, hreceive]
  by_cases hinside : s.writeIndex < s.cfg.cap
  · exact .inl ⟨_, receive_eq b' op hinside⟩
  · exact .inr ⟨hinside, receive_outside b' op hinside⟩

/-- A `Loop` stops at its TAKE only: every command completes, and every ramp check. -/
theorem loopEvent_cases (s : State) :
    (∃ t, loopEvent s = .next t) ∨
    (s.lineReady = true ∧ lineText s = none ∧ loopEvent s = .fault .lineUnterminated) := by
  rcases takeLine_cases s with ⟨hr, -⟩ | ⟨L, hr, hL, -⟩ | ⟨hr, hL, he⟩
  · rw [loopEvent_idle hr]
    exact .inl (rampCheck_completes s)
  · obtain ⟨hbyte, htake, -⟩ := isCommand_not_byte (decodeLine_isCommand L)
    obtain ⟨u, hu⟩ := exec_completes (decodeLine L) { s with lineReady := false } hbyte htake
    rw [loopEvent_line hr hL, hu, andThen_next]
    exact .inl (rampCheck_completes u)
  · exact .inr ⟨hr, hL, by rw [loopEvent, he]⟩

/-- Everything that can stop an event. -/
theorem runEvent_cases (e : Event) (s : State) :
    (∃ t, runEvent e s = .next t) ∨
    (e = .loop ∧ s.lineReady = true ∧ lineText s = none ∧ runEvent e s = .fault .lineUnterminated) ∨
    (¬ s.writeIndex < s.cfg.cap ∧ runEvent e s = .fault .lineAddress) := by
  cases e with
  | reset => exact .inl ⟨_, rfl⟩
  | boot => exact .inl ⟨_, rfl⟩
  | rx b => exact (rxEvent_cases b s).imp_right .inr
  | tick => exact .inl ⟨_, rfl⟩
  | loop => exact (loopEvent_cases s).imp_right fun ⟨hr, hL, he⟩ => .inl ⟨rfl, hr, hL, he⟩

/-- Everything that can stop a step. -/
theorem step_stops (s : State) :
    (∃ t, step s = .next t) ∨
    ((s.booted = true ∧ (s.events = [] ∨ s.events.head? = some .loop) ∧ s.lineReady = true ∧
      lineText s = none) ∧ step s = .fault .lineUnterminated) ∨
    (¬ s.writeIndex < s.cfg.cap ∧ step s = .fault .lineAddress) := by
  rcases step_cases s with ⟨e, rest, hen, hsched, he⟩ | ⟨e, rest, -, -, he⟩
  · rw [he]
    rcases runEvent_cases e { s with events := rest } with hnext | ⟨rfl, hr, hL, hfault⟩ | houtside
    · exact .inl hnext
    · refine .inr (.inl ⟨⟨hen, ?_, hr, (lineText_events s rest).symm.trans hL⟩, hfault⟩)
      rcases hsched with hcons | ⟨hnil, -⟩
      · exact .inr (hcons ▸ rfl)
      · exact .inl hnil
    · exact .inr (.inr houtside)
  · exact .inl ⟨_, he⟩

/-- Settles O54: the three cases of `step_stops`, of which the framer's invariant excludes the last. -/
theorem onlyAnUnterminatedTakeFaults : Obligations.OnlyAnUnterminatedTakeFaults := by
  intro s
  rcases step_stops s with ⟨t, he⟩ | ⟨⟨hb, hsched, hr, hL⟩, he⟩ | ⟨houtside, he⟩ <;> rw [he]
  · exact ⟨nofun, nofun⟩
  · refine ⟨nofun, fun _ f hf => ⟨(Host.Outcome.fault.inj hf).symm, hb, hsched, hr, ?_⟩⟩
    exact lineText_eq_none_iff.1 hL
  · exact ⟨nofun, fun hs => absurd hs.index houtside⟩

/-! ## The logs and the configuration -/

/-- Both logs have grown at their ends, TXLOG by what the new actions transmitted. -/
def LogsGrew (s t : State) : Prop :=
  ∃ acts, t.portLog = s.portLog ++ acts ∧ t.txLog = s.txLog ++ (acts.map PortAction.txBytes).flatten

theorem LogsGrew.refl (s : State) : LogsGrew s s := ⟨[], by simp⟩

theorem Grew.logsGrew {s t : State} {acts : List PortAction} (h : Grew s t acts) : LogsGrew s t :=
  ⟨acts, h.port, h.tx⟩

theorem bootEvent_logsGrew {s t : State} (h : bootEvent s = .next t) : LogsGrew s t := by
  rw [bootEvent_eq] at h
  obtain rfl := Host.Outcome.next.inj h
  refine ⟨_, rfl, ?_⟩
  cases s.cfg.nestedReplies with
  | false => simp [PortAction.txBytes]
  | true => simp [PortAction.txBytes]

theorem runEvent_logsGrew {e : Event} {s t : State} (he : e ≠ .reset) (h : runEvent e s = .next t) :
    LogsGrew s t := by
  cases e with
  | reset => exact absurd rfl he
  | boot => exact bootEvent_logsGrew h
  | rx b => exact (exec_grew h).elim fun _ => Grew.logsGrew
  | tick => exact Host.Outcome.next.inj h ▸ LogsGrew.refl s
  | loop => exact (loopEvent_grew h).elim fun _ => Grew.logsGrew

/-- A step that is a scheduled `Reset` empties the logs; every other one lets them grow. -/
theorem step_logs {s t : State} (h : step s = .next t) :
    (s.events.head? = some .reset ∧ t.portLog = [] ∧ t.txLog = []) ∨ LogsGrew s t := by
  rcases step_cases s with ⟨e, rest, -, hsched, he⟩ | ⟨e, rest, -, -, he⟩ <;> rw [he] at h
  · by_cases hreset : e = .reset
    · subst hreset
      obtain rfl := Host.Outcome.next.inj h
      rcases hsched with hcons | ⟨-, -, hmain⟩
      · exact .inl ⟨hcons ▸ rfl, rfl, rfl⟩
      · split at hmain
        · cases hmain
        · cases hmain
    · exact .inr (runEvent_logsGrew (s := { s with events := rest }) hreset h)
  · exact .inr (Host.Outcome.next.inj h ▸ LogsGrew.refl s)

/-- Settles O55: `step_logs`; what both logs add agrees, and so do empty logs. -/
theorem logsOnlyGrowAndAgree : Obligations.LogsOnlyGrowAndAgree := by
  intro s t h
  rcases step_logs h with ⟨hreset, hport, htx⟩ | ⟨acts, hport, htx⟩ <;> rw [hport, htx]
  · exact ⟨fun hne => absurd hreset hne, fun _ => rfl⟩
  · refine ⟨fun _ => ⟨List.prefix_append _ _, List.prefix_append _ _⟩, fun hagree => ?_⟩
    rw [hagree, List.map_append, List.flatten_append]

theorem runEvent_cfg {e : Event} {s t : State} (h : runEvent e s = .next t) : t.cfg = s.cfg := by
  cases e with
  | reset => exact Host.Outcome.next.inj h ▸ rfl
  | boot =>
    rw [runEvent, bootEvent_eq] at h
    exact Host.Outcome.next.inj h ▸ rfl
  | rx b => exact (exec_grew h).elim fun _ => Grew.cfg
  | tick => exact Host.Outcome.next.inj h ▸ rfl
  | loop => exact (loopEvent_grew h).elim fun _ => Grew.cfg

/-- Settles O56: no event changes the configuration, and dropping one does not either. -/
theorem stepKeepsTheConfiguration : Obligations.StepKeepsTheConfiguration := by
  intro s t h
  rcases step_cases s with ⟨e, rest, -, -, he⟩ | ⟨e, rest, -, -, he⟩ <;> rw [he] at h
  · exact runEvent_cfg (s := { s with events := rest }) h
  · exact Host.Outcome.next.inj h ▸ rfl

/-! ## The framer's invariant -/

/-- The invariant speaks of the buffer, the index and the capacity only. -/
theorem FramerInv.of_frame {s t : State} (hs : FramerInv s) (hbuf : t.lineBuf = s.lineBuf)
    (hindex : t.writeIndex = s.writeIndex) (hcfg : t.cfg = s.cfg) : FramerInv t where
  wf := hbuf ▸ hs.wf
  inside := hbuf ▸ hcfg ▸ hs.inside
  index := hindex ▸ hcfg ▸ hs.index

theorem framerInv_terminate {s : State} (b : Byte) (hs : FramerInv s) :
    FramerInv (rearm (terminateLine (landing b s))) where
  wf := write_wf _ _ _ (write_wf _ _ _ hs.wf)
  inside := write_inside _ _ _ _ hs.index (write_inside _ _ _ _ hs.index hs.inside)
  index := s.cfg.cap_pos

/-- R125: at the last index the wrap keeps the index in range. -/
theorem framerInv_advance {s : State} (b : Byte) (hs : FramerInv s) :
    FramerInv (rearm (advanceIndex (landing b s))) where
  wf := write_wf _ _ _ hs.wf
  inside := write_inside _ _ _ _ hs.index hs.inside
  index := by
    have hcap := s.cfg.cap_pos
    have hin := hs.index
    rw [advance_eq]
    dsimp only
    split <;> omega

theorem framerInv_runEvent {e : Event} {s t : State} (hs : FramerInv s) (h : runEvent e s = .next t) :
    FramerInv t := by
  cases e with
  | reset => exact Host.Outcome.next.inj h ▸ (framerInv_resetWith s.cfg (s.draw + 1)).of_frame rfl rfl rfl
  | boot =>
    rw [runEvent, bootEvent_eq] at h
    exact Host.Outcome.next.inj h ▸ hs.of_frame rfl rfl rfl
  | rx b =>
    rcases rxEvent_next h with rfl | rfl
    · exact framerInv_terminate b hs
    · exact framerInv_advance b hs
  | tick => exact Host.Outcome.next.inj h ▸ hs.of_frame rfl rfl rfl
  | loop =>
    obtain ⟨hbuf, hindex, -⟩ := loopEvent_receiver_frame h
    exact hs.of_frame hbuf hindex (runEvent_cfg h)

/-- Settles O58: `framerInv_runEvent`, and dropping an event touches none of it. -/
theorem framerInvariantIsKept : Obligations.FramerInvariantIsKept := by
  intro s t hs h
  have hsched : ∀ rest, FramerInv { s with events := rest } := fun _ => hs.of_frame rfl rfl rfl
  rcases step_cases s with ⟨e, rest, -, -, he⟩ | ⟨e, rest, -, -, he⟩ <;> rw [he] at h
  · exact framerInv_runEvent (hsched rest) h
  · exact Host.Outcome.next.inj h ▸ hsched rest

/-! ## The backend picture -/

/-- What `BackendInv` says after `Boot`, but for the armed receive. -/
structure BackendPicture (s : State) : Prop where
  pulse1 : s.pulse1 = s.dutyNow.toNat * s.period / 100
  pulse2 : s.pulse2 = s.pulse1
  pulse3 : s.pulse3 = s.pulse1
  period : s.period = s.cfg.clkHz / s.freqHz.toNat - 1
  enabled : s.enabled = s.outEn

theorem BackendInv.picture {s : State} (h : BackendInv s) (hb : s.booted = true) : BackendPicture s :=
  ⟨h.pulse1 hb, h.pulse2 hb, h.pulse3 hb, h.period hb, h.enabled hb⟩

theorem BackendPicture.backendInv {s : State} (h : BackendPicture s) (hb : s.booted = true)
    (ha : s.rxArmed = true) : BackendInv s :=
  ⟨fun _ => h.pulse1, fun _ => h.pulse2, fun _ => h.pulse3, fun _ => h.period, fun _ => h.enabled,
    fun _ => ha, fun hnot => absurd hb (hnot ▸ nofun)⟩

theorem BackendPicture.of_regs {s t : State} (hs : BackendPicture s) (hpwm : pwmRegs t = pwmRegs s)
    (hbackend : backendRegs t = backendRegs s) (hcfg : t.cfg = s.cfg) : BackendPicture t := by
  simp only [pwmRegs, Prod.mk.injEq] at hpwm
  simp only [backendRegs, Prod.mk.injEq] at hbackend
  obtain ⟨hnow, -, henabled, hfreq⟩ := hpwm
  obtain ⟨hperiod, hpulse1, hpulse2, hpulse3, hout⟩ := hbackend
  constructor
  · rw [hpulse1, hnow, hperiod, hs.pulse1]
  · rw [hpulse2, hpulse1, hs.pulse2]
  · rw [hpulse3, hpulse1, hs.pulse3]
  · rw [hperiod, hcfg, hfreq, hs.period]
  · rw [henabled, hout, hs.enabled]

theorem backendPicture_emit {s : State} (x : Text) (hs : BackendPicture s) : BackendPicture (emit x s) :=
  hs.of_regs rfl rfl rfl

theorem backendPicture_pwmSetTarget {s : State} (d : Fin 101) (hs : BackendPicture s) :
    BackendPicture (pwmSetTarget d s) :=
  ⟨hs.pulse1, hs.pulse2, hs.pulse3, hs.period, hs.enabled⟩

theorem backendPicture_pwmStart {s : State} (announce : Bool) (hs : BackendPicture s) :
    BackendPicture (pwmStart announce s) := by
  rw [pwmStart_eq]
  exact ⟨hs.pulse1, hs.pulse2, hs.pulse3, hs.period, rfl⟩

theorem backendPicture_pwmStop {s : State} (announce : Bool) (hs : BackendPicture s) :
    BackendPicture (pwmStop announce s) := by
  rw [pwmStop_eq]
  exact ⟨hs.pulse1, hs.pulse2, hs.pulse3, hs.period, rfl⟩

/-- DUTY_NOW holds the clamped duty without loss, of which the pulses are computed. -/
theorem backendPicture_pwmSetDuty {s : State} (duty : Int) (hs : BackendPicture s) :
    BackendPicture (pwmSetDuty duty s) where
  pulse1 := (congrArg (· * s.period / 100) (dutyNow_toNat_of_clamp duty)).symm
  pulse2 := rfl
  pulse3 := rfl
  period := hs.period
  enabled := hs.enabled

/-- An accepted frequency is the one the period is computed of, and FREQ_HZ holds it without loss. -/
theorem backendPicture_setFrequencyAccepted {s : State} {f : Int} (hlo : 1000 ≤ f) (hhi : f ≤ 50000) :
    BackendPicture (setFrequencyAccepted f s) := by
  have hstored := toNat_ofInt_of_freqInRange hlo hhi
  rw [setFrequencyAccepted_eq]
  constructor
  case pulse1 => exact (congrArg (· * periodFor s.cfg f / 100) (dutyNow_toNat_of_clamp _)).symm
  case pulse2 => rfl
  case pulse3 => rfl
  case period => exact (congrArg (periodFor s.cfg) hstored).symm.trans (periodFor_natCast s.cfg _)
  case enabled => rfl

theorem backendPicture_command {i : Instr} {s t : State} (hi : i.isCommand = true) (hs : BackendPicture s)
    (h : exec i s = .next t) : BackendPicture t := by
  have of_next : ∀ {u : State}, (.next u : Host.Outcome State Fault Refusal) = .next t →
      BackendPicture u → BackendPicture t := fun hu hp => Host.Outcome.next.inj hu ▸ hp
  cases i with
  | set v => exact of_next h (backendPicture_emit _ (backendPicture_pwmSetTarget _ hs))
  | freq f =>
    rcases pwmSetFrequency_cases f s with ⟨hlo, hhi, he⟩ | ⟨-, he⟩
    · exact of_next h (he ▸ backendPicture_setFrequencyAccepted hlo hhi)
    · exact of_next h (he ▸ backendPicture_emit _ hs)
  | start => exact of_next h (backendPicture_pwmStart true hs)
  | stop => exact of_next h (backendPicture_pwmStop true hs)
  | status => exact of_next h (backendPicture_emit _ (backendPicture_emit _ (backendPicture_emit _ hs)))
  | unknown => exact of_next h (backendPicture_emit _ hs)
  | _ => cases hi

theorem backendPicture_rampCheck {s t : State} (hs : BackendPicture s) (h : rampCheck s = .next t) :
    BackendPicture t := by
  have hmark : BackendPicture (markFiring s) := hs.of_regs rfl rfl rfl
  rcases rampCheck_cases s with he | ⟨-, he⟩ | ⟨-, he⟩ | ⟨-, he⟩ <;> rw [he] at h <;>
    obtain rfl := Host.Outcome.next.inj h
  · exact hs
  · exact backendPicture_pwmSetDuty _ hmark
  · exact backendPicture_pwmSetDuty _ hmark
  · exact hmark

theorem backendPicture_loopEvent {s t : State} (hs : BackendPicture s) (h : loopEvent s = .next t) :
    BackendPicture t := by
  rcases loopEvent_next h with ⟨-, hramp⟩ | ⟨L, u, -, -, hexec, hramp⟩
  · exact backendPicture_rampCheck hs hramp
  · have htaken : BackendPicture { s with lineReady := false } := hs.of_regs rfl rfl rfl
    exact backendPicture_rampCheck (backendPicture_command (decodeLine_isCommand L) htaken hexec) hramp

/-- `Boot` programs the period of 20000 Hz, which is what FREQ_HZ holds before it. -/
theorem backendPicture_bootEvent {s t : State} (hfreq : s.freqHz.toNat = 20000)
    (h : bootEvent s = .next t) : BackendPicture t := by
  rw [bootEvent_eq] at h
  obtain rfl := Host.Outcome.next.inj h
  exact ⟨rfl, rfl, rfl, hfreq ▸ rfl, rfl⟩

theorem bootEvent_booted {s t : State} (h : bootEvent s = .next t) : t.booted = true := by
  obtain rfl := Host.Outcome.next.inj h
  rfl

theorem backendInv_runEvent {e : Event} {s t : State} (hs : BackendInv s) (hen : enabledEvent e s = true)
    (h : runEvent e s = .next t) : BackendInv t := by
  have harmed := runEvent_armed hen hs.armed h
  cases e with
  | reset =>
    obtain rfl := Host.Outcome.next.inj h
    exact ⟨nofun, nofun, nofun, nofun, nofun, nofun, fun _ => rfl⟩
  | boot =>
    have hb : s.booted = false := by simpa [enabledEvent] using hen
    have hbooted := bootEvent_booted h
    exact (backendPicture_bootEvent (hs.unbooted hb) h).backendInv hbooted (harmed hbooted)
  | rx b =>
    have hb : s.booted = true := by
      simp only [enabledEvent, Bool.and_eq_true] at hen
      exact hen.1
    obtain ⟨_, hgrew⟩ := exec_grew h
    obtain ⟨hpwm, hbackend, -⟩ := rxEvent_sameOutsideReceiver h
    have hbooted := hgrew.booted.trans hb
    exact ((hs.picture hb).of_regs hpwm hbackend hgrew.cfg).backendInv hbooted (harmed hbooted)
  | tick =>
    obtain ⟨hpwm, hbackend, -⟩ := tickEvent_sameOutsideReceiver h
    obtain rfl := Host.Outcome.next.inj h
    exact ((hs.picture hen).of_regs hpwm hbackend rfl).backendInv hen (hs.armed hen)
  | loop =>
    obtain ⟨_, hgrew⟩ := loopEvent_grew h
    have hbooted := hgrew.booted.trans hen
    exact (backendPicture_loopEvent (hs.picture hen) h).backendInv hbooted (harmed hbooted)

/-- Settles O59: `backendInv_runEvent`; its premise on PwmState is not needed, since FREQ_HZ and DUTY_NOW
are written within their ranges only. -/
theorem backendPictureIsKept : Obligations.BackendPictureIsKept := by
  intro s t _ hs h
  have hsched : ∀ rest, BackendInv { s with events := rest } := fun _ =>
    ⟨hs.pulse1, hs.pulse2, hs.pulse3, hs.period, hs.enabled, hs.armed, hs.unbooted⟩
  rcases step_cases s with ⟨e, rest, hen, -, he⟩ | ⟨e, rest, -, -, he⟩ <;> rw [he] at h
  · exact backendInv_runEvent (hsched rest) hen h
  · exact Host.Outcome.next.inj h ▸ hsched rest

end Sys2Proof.Machine
end

section
/-! Taking a line without a fault (20_memory.md R74): after its terminator a line has a sentinel, and under
NO_OVERRUN (44_main_loop.md R213) no byte lands between the terminator and the take. -/

namespace Sys2Proof.Machine

/-! ## One line -/

/-- A `Loop` whose ready line has a text completes, and the line is gone. -/
theorem loopEvent_takes {s : State} {L : Text} (hL : lineText s = some L) :
    ∃ t, loopEvent s = .next t ∧ t.events = s.events ∧ t.lineReady = false := by
  rcases loopEvent_cases s with ⟨t, he⟩ | ⟨-, hnone, -⟩
  · obtain ⟨_, hgrew⟩ := loopEvent_grew he
    obtain ⟨-, -, hr⟩ := loopEvent_receiver_frame he
    exact ⟨t, he, hgrew.events, hr⟩
  · exact absurd (hL.symm.trans hnone) nofun

/-! ## Runs under NO_OVERRUN -/

/-- The state and the events to come from it are such that no TAKE can fault: a ready line has a text, and
the poll that takes it comes before the next byte. -/
structure TakesAreSafe (s : State) (es : List Event) : Prop where
  framer : FramerInv s
  schedule : NoOverrun es
  text : s.lineReady = true → ∃ L, lineText s = some L
  waits : s.lineReady = true → ∃ e, (e = CR ∨ e = LF) ∧ NoOverrun (.rx e :: es)

theorem TakesAreSafe.completes {s : State} {es : List Event} (h : TakesAreSafe s es) :
    ∃ t, step s = .next t := by
  rcases step_stops s with hnext | ⟨⟨-, -, hr, hnone⟩, -⟩ | ⟨houtside, -⟩
  · exact hnext
  · obtain ⟨L, hL⟩ := h.text hr
    exact absurd (hL.symm.trans hnone) nofun
  · exact absurd h.framer.index houtside

/-- An event after which no line is ready leaves nothing to take. -/
theorem TakesAreSafe.of_idle {s t : State} {x : Event} {es : List Event} (h : TakesAreSafe s (x :: es))
    (hframer : FramerInv t) (hidle : t.lineReady = false) : TakesAreSafe t es where
  framer := hframer
  schedule := h.schedule.tail
  text := fun hr => absurd (hidle.symm.trans hr) nofun
  waits := fun hr => absurd (hidle.symm.trans hr) nofun

/-- An event that is no poll and leaves the ready line alone leaves it waiting. -/
theorem TakesAreSafe.of_same_line {s t : State} {x : Event} {es : List Event} (h : TakesAreSafe s (x :: es))
    (hx : x ≠ .loop) (hframer : FramerInv t) (hready : t.lineReady = s.lineReady)
    (htext : lineText t = lineText s) : TakesAreSafe t es where
  framer := hframer
  schedule := h.schedule.tail
  text := fun hr => htext ▸ h.text (hready ▸ hr)
  waits := fun hr => (h.waits (hready ▸ hr)).imp fun _ ⟨hterm, hwait⟩ => ⟨hterm, hwait.drop_other hx⟩

/-- A byte lands only while no line is ready; then a terminator makes one, which has its sentinel. -/
theorem TakesAreSafe.rx {s t : State} {b : Byte} {es : List Event} (h : TakesAreSafe s (.rx b :: es))
    (hframer : FramerInv t) (hrun : rxEvent b s = .next t) : TakesAreSafe t es := by
  have hidle : s.lineReady = false := by
    by_contra hr
    obtain ⟨e, hterm, hwait⟩ := h.waits (Bool.eq_true_of_not_eq_false hr)
    exact NoOverrun.not_rx hterm hwait
  rw [rxEvent, exec_decodeByte] at hrun
  split at hrun
  · rename_i hterm
    obtain ⟨hinside, rfl⟩ := receive_next hrun
    obtain ⟨L, hL, -⟩ := lineText_of_sentinel (s := rearm (terminateLine (landing b s))) hinside
      (terminate_lineByte_same b s)
    exact ⟨hframer, h.schedule.tail, fun _ => ⟨L, hL⟩, fun _ => ⟨b, hterm, h.schedule⟩⟩
  · obtain ⟨-, rfl⟩ := receive_next hrun
    exact h.of_idle hframer hidle

theorem TakesAreSafe.runEvent {e : Event} {s t : State} {es : List Event} (h : TakesAreSafe s (e :: es))
    (hrun : runEvent e s = .next t) : TakesAreSafe t es := by
  have hframer := framerInv_runEvent h.framer hrun
  cases e with
  | reset => exact h.of_idle hframer (Host.Outcome.next.inj hrun ▸ rfl)
  | boot =>
    rw [Machine.runEvent, bootEvent_eq] at hrun
    obtain rfl := Host.Outcome.next.inj hrun
    exact h.of_same_line nofun hframer rfl (lineText_congr rfl rfl rfl)
  | rx b => exact h.rx hframer hrun
  | tick =>
    obtain rfl := Host.Outcome.next.inj hrun
    exact h.of_same_line nofun hframer rfl (lineText_congr rfl rfl rfl)
  | loop =>
    obtain ⟨-, -, hidle⟩ := loopEvent_receiver_frame hrun
    exact h.of_idle hframer hidle

theorem TakesAreSafe.dropEvents {s : State} {es : List Event} (h : TakesAreSafe s es) (rest : List Event) :
    TakesAreSafe { s with events := rest } es where
  framer := h.framer.of_frame rfl rfl rfl
  schedule := h.schedule
  text := fun hr => lineText_events s rest ▸ h.text hr
  waits := h.waits

theorem TakesAreSafe.step {n : Nat} {s t : State} (h : TakesAreSafe s (executed (n + 1) s))
    (hstep : step s = .next t) : TakesAreSafe t (executed n t) := by
  rcases executed_succ (n := n) hstep with ⟨rest, -, -, rfl, hes⟩ | ⟨e, rest, -, hrun, hes⟩ <;> rw [hes] at h
  · exact h.dropEvents rest
  · exact (h.dropEvents rest).runEvent hrun

theorem runFor_of_takesAreSafe {n : Nat} {s : State} (h : TakesAreSafe s (executed n s)) :
    ∃ t, runFor n s = .next t := by
  induction n generalizing s with
  | zero => exact ⟨s, rfl⟩
  | succ n ih =>
    obtain ⟨u, hstep⟩ := h.completes
    rw [run_succ_of_next n hstep]
    exact ih (h.step hstep)

/-- Settles O28: the terminator's sentinel bounds the line text; and no TAKE of a run can fault
(`TakesAreSafe`), from the beginning on, where no line is ready. -/
theorem terminatedLineIsTakenWithoutFault : Obligations.TerminatedLineIsTakenWithoutFault := by
  refine ⟨fun s e rest hb ha hw hterm he => ?line, fun s n hframer hidle hes => ?run⟩
  case line =>
    obtain ⟨t, hstep, hte, -, -, -, hzero, -, htm⟩ := step_terminator hb ha hw hterm he
    have hcfg : t.cfg = s.cfg := by rw [htm]
    have htb : t.booted = true := by rw [htm]; exact hb
    obtain ⟨L, hL, hlen, hnonzero⟩ := lineText_of_sentinel (hcfg ▸ hw) hzero
    obtain ⟨u, hloop, hue, hur⟩ := loopEvent_takes ((lineText_events t rest).trans hL)
    exact ⟨t, u, hstep, (step_loop htb hte).trans hloop, hue, hur, L, hL, hlen, hnonzero⟩
  case run =>
    have hnone : ¬ s.lineReady = true := Bool.eq_false_iff.1 hidle
    exact runFor_of_takesAreSafe
      ⟨hframer, hes, fun hr => absurd hr hnone, fun hr => absurd hr hnone⟩

end Sys2Proof.Machine
end

section
/-! The commands' effects (41_command_dispatch.md R142 to R148, 42_pwm_facade.md R174, R179, R180): what SET and an
accepted frequency leave, how many lines each command replies, and the ranges of period and pulse. -/

namespace Sys2Proof.Machine

/-! ## SET -/

/-- Settles O29: the stored and the replied value are both `clampDuty v`, which is `d`. -/
theorem setStoresAndRepliesTheClampedTarget : Obligations.SetStoresAndRepliesTheClampedTarget := by
  intro T v d s hd
  have hclamp : (clampDuty v).val = d := by
    have := clampDuty_val v
    omega
  refine ⟨decodeLine_set T, emit (replyTarget (clampDuty v).val) (pwmSetTarget (clampDuty v) s), rfl, ?target,
    fun _ => rfl, ?frame⟩
  case target => exact (pwmSetTarget_dutyTarget (clampDuty v) s).trans hclamp
  case frame => rw [hclamp]; rfl

/-! ## An accepted frequency -/

/-- In range, the clamp of R181 gives DUTY_NOW itself back. -/
theorem ofNat_clampDuty_toNat {d : BitVec 7} (h : d.toNat ≤ 100) :
    BitVec.ofNat 7 (clampDuty d.toNat).val = d := by
  rw [clampDuty_natCast d.toNat h, BitVec.ofNat_toNat, BitVec.setWidth_eq]

/-- Settles O31: `setFrequencyAccepted_eq` with the operand and the duty as the numbers they are. -/
theorem acceptedFrequencyReprogramsAndRestarts : Obligations.AcceptedFrequencyReprogramsAndRestarts := by
  intro i f n p q s hi hf hlo hhi hduty hp hq
  subst hf hq hp
  rw [exec_eq_pwmSetFrequency (hi.imp_right .inl), pwmSetFrequency_accepted (by omega) (by omega),
    setFrequencyAccepted_eq]
  simp only [periodFor_natCast, clampDuty_natCast _ hduty, BitVec.ofNat_toNat, BitVec.setWidth_eq,
    BitVec.ofInt_natCast, Int.toNat_natCast]
  cases s.cfg.nestedReplies with
  | false => rfl
  | true =>
    congr 2
    exact congrArg (s.txLog ++ ·) (List.append_assoc _ _ _).symm

/-- The backend calls of an accepted frequency, with the period and the duty it leaves (R265). -/
theorem setFrequencyAccepted_backendCalls (f : Int) (s : State) : ∃ q,
    (setFrequencyAccepted f s).portLog.filter PortAction.isBackend =
      s.portLog.filter PortAction.isBackend ++
        [.disable, .setPeriod (setFrequencyAccepted f s).period, .setPulse q q q, .enable] := by
  refine ⟨(setFrequencyAccepted f s).pulse1, ?_⟩
  rw [setFrequencyAccepted_eq]
  dsimp only
  rw [List.filter_append]
  cases s.cfg.nestedReplies with
  | false => rfl
  | true => rfl

/-- What the ramp check after an accepted frequency reads is what it would have read before. -/
theorem setFrequencyAccepted_ramp (f : Int) {s : State} (hduty : s.dutyNow.toNat ≤ 100) :
    (setFrequencyAccepted f s).dutyNow = s.dutyNow ∧ (setFrequencyAccepted f s).dutyTarget = s.dutyTarget ∧
    (setFrequencyAccepted f s).tick = s.tick ∧ (setFrequencyAccepted f s).lastStepTick = s.lastStepTick := by
  rw [setFrequencyAccepted_eq]
  exact ⟨ofNat_clampDuty_toNat hduty, rfl, rfl, rfl⟩

/-- A firing off the target is one `set_duty`. -/
theorem rampCheck_steps {s : State} (hdue : rampIntervalMs ≤ elapsed s) (hoff : s.dutyNow ≠ s.dutyTarget) :
    ∃ duty, rampCheck s = .next (pwmSetDuty duty (markFiring s)) := by
  have hne : s.dutyNow.toNat ≠ s.dutyTarget.toNat := fun h => hoff (BitVec.eq_of_toNat_eq h)
  rw [rampCheck_fires hdue, exec_rampSelect]
  by_cases hbelow : s.dutyNow.toNat < s.dutyTarget.toNat
  · exact ⟨_, by rw [if_pos hbelow]⟩
  · exact ⟨_, by rw [if_neg hbelow, if_pos (by omega)]⟩

/-- Settles O50: the command's calls, then the one call of a firing off the target. -/
theorem freqAndRampStepShareOneLoopInOrder : Obligations.FreqAndRampStepShareOneLoopInOrder := by
  intro s t f L hr hL hdecode hlo hhi hoff hinv hdue hloop
  have hcommand : exec (decodeLine L) { s with lineReady := false } =
      .next (setFrequencyAccepted f { s with lineReady := false }) := by
    rw [hdecode, exec_eq_pwmSetFrequency (.inl rfl), pwmSetFrequency_accepted hlo hhi]
  obtain ⟨hnow, htarget, htick, hlast⟩ :=
    setFrequencyAccepted_ramp f (s := { s with lineReady := false }) hinv.now_le
  obtain ⟨q, hcalls⟩ := setFrequencyAccepted_backendCalls f { s with lineReady := false }
  rw [loopEvent_line hr hL, hcommand, andThen_next] at hloop
  generalize setFrequencyAccepted f { s with lineReady := false } = u at *
  have hdue' : rampIntervalMs ≤ elapsed u := by
    rw [interval_le_iff, htick, hlast]
    exact hdue
  obtain ⟨duty, hstep⟩ := rampCheck_steps hdue' (by rw [hnow, htarget]; exact hoff)
  obtain rfl := Host.Outcome.next.inj (hstep.symm.trans hloop)
  refine ⟨u.period, q, (clampDuty duty).val * u.period / 100, ?_, rfl, rfl, htick⟩
  rw [pwmSetDuty_eq, markFiring_portLog, markFiring_period, List.filter_append, hcalls]
  simp [PortAction.isBackend]

/-! ## The number of reply lines -/

/-- R148: the lines a command replies (decision D9 for FREQ). -/
def replyLines (i : Instr) (s : State) : Nat :=
  match i with
  | .status => 3
  | .freq f => if freqInRange f && s.cfg.nestedReplies then 3 else 1
  | _ => 1

theorem pwmSetFrequency_replyLines (f : Int) (s : State) :
    ∃ acts, Grew s (pwmSetFrequency f s) acts ∧ acts.countP PortAction.isTx = replyLines (.freq f) s := by
  obtain ⟨acts, hgrew, hacts⟩ := pwmSetFrequency_grew f s
  refine ⟨acts, hgrew, ?_⟩
  rcases hacts with ⟨hlo, hhi, p, q, rfl⟩ | ⟨hout, rfl⟩
  · have hin : freqInRange f = true := (freqInRange_iff f).2 ⟨hlo, hhi⟩
    cases hn : s.cfg.nestedReplies with
    | false => simp only [replyLines, hin, hn]; rfl
    | true => simp only [replyLines, hin, hn]; rfl
  · have hin : freqInRange f = false := Bool.eq_false_iff.2 fun h => by
      have := (freqInRange_iff f).1 h
      omega
    simp [replyLines, hin, PortAction.isTx]

/-- Every command completes; its lines are among what it adds to the port log. -/
theorem command_replyLines {i : Instr} (hi : i.isCommand = true) (s : State) :
    ∃ t acts, exec i s = .next t ∧ Grew s t acts ∧ acts.countP PortAction.isTx = replyLines i s := by
  cases i with
  | set v =>
    have hreply := emit_grew (replyTarget_ne (clampDuty v).val) (pwmSetTarget (clampDuty v) s)
    exact ⟨_, _, rfl, { hreply with noBanner := hreply.noBanner }, rfl⟩
  | freq f =>
    obtain ⟨acts, hgrew, hcount⟩ := pwmSetFrequency_replyLines f s
    exact ⟨_, acts, rfl, hgrew, hcount⟩
  | start => exact ⟨_, _, rfl, pwmStart_grew true s, rfl⟩
  | stop => exact ⟨_, _, rfl, pwmStop_grew true s, rfl⟩
  | status =>
    exact ⟨_, _, rfl, ((emit_grew (replyDuty_ne _ _) s).trans (emit_grew (replyFreqIs_ne _) _)).trans
      (emit_grew (replyState_ne _) _), rfl⟩
  | unknown => exact ⟨_, _, rfl, emit_grew (errorText_ne .cmdError) s, rfl⟩
  | _ => cases hi

/-- Outside STATUS and an accepted FREQ a command replies one line. -/
theorem replyLines_eq_one {i : Instr} (hstatus : i ≠ .status)
    (hfreq : ∀ f, i = .freq f → f < 1000 ∨ 50000 < f) (s : State) : replyLines i s = 1 := by
  cases i with
  | status => exact absurd rfl hstatus
  | freq f =>
    have hin : freqInRange f = false := Bool.eq_false_iff.2 fun h => by
      have := (freqInRange_iff f).1 h
      have := hfreq f rfl
      omega
    simp [replyLines, hin]
  | _ => rfl

/-- Settles O40: `command_replyLines`, and the cases of `replyLines`. -/
theorem everyCommandRepliesItsNumberOfLines : Obligations.EveryCommandRepliesItsNumberOfLines := by
  intro i s hi
  obtain ⟨t, acts, hexec, hgrew, hcount⟩ := command_replyLines hi s
  refine ⟨t, acts, hexec, hgrew.port, hgrew.tx, ?status, ?accepted, fun hstatus hfreq => ?other⟩
  case status => rintro rfl; exact hcount
  case accepted =>
    rintro f rfl hlo hhi
    have hin : freqInRange f = true := (freqInRange_iff f).2 ⟨hlo, hhi⟩
    rw [hcount, replyLines, hin, Bool.true_and]
  case other => rw [hcount, replyLines_eq_one hstatus hfreq]

/-! ## Period and pulse -/

theorem pulseFor_le_period {d : Nat} (hd : d ≤ 100) (p : Nat) : pulseFor d p ≤ p :=
  Nat.div_le_of_le_mul (Nat.mul_le_mul_right p hd)

theorem pulseFor_mono {d e : Nat} (h : d ≤ e) (p : Nat) : pulseFor d p ≤ pulseFor e p :=
  Nat.div_le_div_right (Nat.mul_le_mul_right p h)

/-- One percent more of a period of 100 or more is at least one count more. -/
theorem pulseFor_lt_succ (d : Nat) {p : Nat} (hp : 100 ≤ p) : pulseFor d p < pulseFor (d + 1) p := by
  unfold pulseFor
  rw [Nat.succ_mul]
  omega

/-- `CLK_HZ` is at least the greatest accepted frequency (U8), so R179 subtracts from 1 or more. -/
theorem periodFor_add_one (cfg : Config) {n : Nat} (hpos : 0 < n) (hhi : n ≤ 50000) :
    periodFor cfg n + 1 = cfg.clkHz / n := by
  rw [periodFor_natCast, Nat.sub_add_cancel (Nat.div_pos (hhi.trans cfg.clk_ok) hpos)]

/-- Settles O43: the period by the least clock, the pulse by its monotony in the duty. -/
theorem periodAndPulseStayInRange : Obligations.PeriodAndPulseStayInRange :=
  ⟨fun cfg _ hlo hhi => periodFor_add_one cfg (by omega) hhi, fun _ p hd => pulseFor_le_period hd p,
    fun _ _ p h => pulseFor_mono h p,
    fun d _ p h hp => (pulseFor_lt_succ d hp).trans_le (pulseFor_mono h p)⟩

end Sys2Proof.Machine
end

section
/-! The ramp over time (43_ramp_scheduler.md section 3). One firing moves the duty one step toward the target
(`Approaches`); a run is a sequence of ticks and polls whose firings add up (`RampRan`). Under LOOP_FAST
(44_main_loop.md R213) a tick is polled before the next one, so no cadence point is missed. -/

namespace Sys2Proof.Machine

/-! ## One ramp check -/

/-- From `now`, `f` steps of one toward `target` end at `later`: at the target or `f` nearer to it. -/
def Approaches (now target f later : Nat) : Prop :=
  (now ≤ target → later = min target (now + f)) ∧ (target ≤ now → later = max target (now - f))

theorem Approaches.zero (now target : Nat) : Approaches now target 0 now := by
  unfold Approaches
  omega

theorem Approaches.trans {now mid later target f g : Nat} (h : Approaches now target f mid)
    (h' : Approaches mid target g later) : Approaches now target (f + g) later := by
  unfold Approaches at *
  omega

theorem pwmSetDuty_dutyNow (duty : Int) (s : State) :
    ((pwmSetDuty duty s).dutyNow.toNat : Int) = max 0 (min 100 duty) :=
  (congrArg Nat.cast (dutyNow_toNat_of_clamp duty)).trans (clampDuty_val duty)

/-- Every firing is one step; the clamp of R181 does not act within the range. -/
theorem exec_rampSelect_approaches {s t : State} (hs : PwmInv s) (h : exec (rampSelect s) s = .next t) :
    Approaches s.dutyNow.toNat s.dutyTarget.toNat 1 t.dutyNow.toNat := by
  have hnow := hs.now_le
  have htarget := hs.target_le
  have hset := fun duty => pwmSetDuty_dutyNow duty (markFiring s)
  rw [exec_rampSelect] at h
  obtain rfl := Host.Outcome.next.inj h
  unfold Approaches
  by_cases hbelow : s.dutyNow.toNat < s.dutyTarget.toNat
  · have := hset (s.dutyNow.toNat + 1)
    rw [if_pos hbelow]
    omega
  · by_cases habove : s.dutyTarget.toNat < s.dutyNow.toNat
    · have := hset (s.dutyNow.toNat - 1)
      rw [if_neg hbelow, if_pos habove]
      omega
    · rw [if_neg hbelow, if_neg habove, markFiring_dutyNow]
      omega

theorem rampCheck_approaches {s t : State} (hs : PwmInv s) (h : rampCheck s = .next t) :
    t.dutyNow = s.dutyNow ∨ Approaches s.dutyNow.toNat s.dutyTarget.toNat 1 t.dutyNow.toNat := by
  by_cases hdue : rampIntervalMs ≤ elapsed s
  · exact .inr (exec_rampSelect_approaches hs ((rampCheck_fires hdue).symm.trans h))
  · obtain rfl := Host.Outcome.next.inj ((rampCheck_idle hdue).symm.trans h)
    exact .inl rfl

/-- Settles O48: `rampCheck_frame` for what is left alone, `rampCheck_approaches` for the duty. -/
theorem rampCheckNeverMovesAwayFromTheTarget : Obligations.RampCheckNeverMovesAwayFromTheTarget := by
  intro s hs
  obtain ⟨t, h⟩ := rampCheck_completes s
  have hframe := rampCheck_frame h
  refine ⟨t, h, by rw [hframe], by rw [hframe], by rw [hframe], by rw [hframe],
    lineByte_congr (by rw [hframe]) (by rw [hframe]), ?_⟩
  rcases rampCheck_approaches hs h with hsame | ⟨hup, hdown⟩
  · rw [hsame]
    omega
  · omega

/-- `s` with other outputs: what a ramp check must not read. -/
def withOutputs (on out : Bool) (s : State) : State :=
  { s with enabled := on, outEn := out }

theorem exec_ramp_withOutputs {i : Instr} (hi : i.format = .RAMP) (on out : Bool) (s : State) :
    exec i (withOutputs on out s) = mapNext (withOutputs on out) (exec i s) := by
  cases i with
  | rampUp => rfl
  | rampDown => rfl
  | rampHold => rfl
  | _ => cases hi

theorem rampSelect_format (s : State) : (rampSelect s).format = .RAMP := by
  unfold rampSelect
  split
  · rfl
  · split
    · rfl
    · rfl

/-- Whether the ramp fires and which row it selects are read from the ticks and the duties. -/
theorem rampCheck_withOutputs (on out : Bool) (s : State) :
    rampCheck (withOutputs on out s) = mapNext (withOutputs on out) (rampCheck s) := by
  by_cases hdue : rampIntervalMs ≤ elapsed s
  · rw [rampCheck_fires hdue, rampCheck_fires (s := withOutputs on out s) hdue]
    exact exec_ramp_withOutputs (rampSelect_format s) on out s
  · rw [rampCheck_idle hdue, rampCheck_idle (s := withOutputs on out s) hdue, mapNext_next]

/-- Settles O49: `rampCheck_withOutputs`. -/
theorem rampDoesNotDependOnTheOutputs : Obligations.RampDoesNotDependOnTheOutputs :=
  fun s on out => rampCheck_withOutputs on out s

/-! ## What ticks and firings add up to -/

/-- From `s` to `t` so many ticks have passed and so many firings happened, each 20 ms after the last one. -/
structure RampRan (s t : State) (ticks firings : Nat) : Prop where
  target : t.dutyTarget = s.dutyTarget
  tick : t.tick = s.tick + BitVec.ofNat 32 ticks
  last : t.lastStepTick = s.lastStepTick + BitVec.ofNat 32 (20 * firings)
  duty : Approaches s.dutyNow.toNat s.dutyTarget.toNat firings t.dutyNow.toNat

theorem RampRan.refl (s : State) : RampRan s s 0 0 :=
  ⟨rfl, (BitVec.add_zero _).symm, (BitVec.add_zero _).symm, Approaches.zero _ _⟩

theorem RampRan.trans {s t u : State} {k l f g : Nat} (h : RampRan s t k f) (h' : RampRan t u l g) :
    RampRan s u (k + l) (f + g) where
  target := h'.target.trans h.target
  tick := by rw [h'.tick, h.tick, BitVec.ofNat_add, BitVec.add_assoc]
  last := by rw [h'.last, h.last, Nat.mul_add, BitVec.ofNat_add, BitVec.add_assoc]
  duty := h.duty.trans (h.target ▸ h'.duty)

/-- The schedule plays no part in it. -/
theorem RampRan.of_events {s t : State} {rest : List Event} {k f : Nat}
    (h : RampRan { s with events := rest } t k f) : RampRan s t k f :=
  ⟨h.target, h.tick, h.last, h.duty⟩

/-- What the ramp claims assume of a state: the machine runs, no line waits, and PwmState is in range. -/
structure RampReady (s : State) : Prop where
  booted : s.booted = true
  idle : s.lineReady = false
  pwm : PwmInv s

theorem RampReady.withEvents {s : State} (h : RampReady s) (rest : List Event) :
    RampReady { s with events := rest } :=
  ⟨h.booted, h.idle, h.pwm.of_regs rfl rfl⟩

theorem tickEvent_ran {s t : State} (hs : RampReady s) (h : tickEvent s = .next t) :
    RampReady t ∧ RampRan s t 1 0 := by
  obtain rfl := Host.Outcome.next.inj h
  exact ⟨⟨hs.booted, hs.idle, hs.pwm.of_regs rfl rfl⟩,
    ⟨rfl, rfl, (BitVec.add_zero _).symm, Approaches.zero _ _⟩⟩

/-- `e` ms after the last firing a check fires exactly when `e` is 20 or more. -/
theorem interval_le_iff_of_phase {s : State} {e : Nat} (hphase : s.tick = s.lastStepTick + BitVec.ofNat 32 e)
    (he : e < 2 ^ 32) : rampIntervalMs ≤ elapsed s ↔ 20 ≤ e := by
  have helapsed : (elapsed s).toNat = e := by
    rw [elapsed, hphase, BitVec.add_comm, BitVec.add_sub_cancel, BitVec.toNat_ofNat, Nat.mod_eq_of_lt he]
  rw [BitVec.le_def, helapsed]
  rfl

theorem loopEvent_waits {s : State} {e : Nat} (hs : RampReady s)
    (hphase : s.tick = s.lastStepTick + BitVec.ofNat 32 e) (he : e < 20) : loopEvent s = .next s := by
  rw [loopEvent_idle hs.idle]
  exact rampCheck_idle fun hdue => he.not_ge ((interval_le_iff_of_phase hphase (by omega)).1 hdue)

/-- A poll 20 ms after the last firing fires once and starts the next cadence there. -/
theorem loopEvent_fires {s t : State} (hs : RampReady s)
    (hphase : s.tick = s.lastStepTick + BitVec.ofNat 32 20) (h : loopEvent s = .next t) :
    RampReady t ∧ RampRan s t 0 1 ∧ t.lastStepTick = t.tick ∧ t.events = s.events := by
  rw [loopEvent_idle hs.idle] at h
  have hframe := rampCheck_frame h
  have hfires := rampCheck_fires ((interval_le_iff_of_phase hphase (by decide)).2 (Nat.le_refl 20))
  obtain ⟨u, hu, hsample⟩ := rampSelect_fires s
  obtain rfl : u = t := Host.Outcome.next.inj ((hfires.trans hu).symm.trans h)
  have htick : u.tick = s.tick := by rw [hframe]
  refine ⟨⟨?booted, ?idle, pwmInv_rampCheck hs.pwm h⟩, ⟨?target, ?tick, ?last, ?duty⟩,
    hsample.trans htick.symm, ?events⟩
  case booted => rw [hframe]; exact hs.booted
  case idle => rw [hframe]; exact hs.idle
  case target => rw [hframe]
  case tick => rw [htick]; exact (BitVec.add_zero _).symm
  case last => exact hsample.trans hphase
  case duty => exact exec_rampSelect_approaches hs.pwm hu
  case events => rw [hframe]

theorem loopEvent_completes_of_idle {s : State} (h : s.lineReady = false) : ∃ t, loopEvent s = .next t := by
  rw [loopEvent_idle h]
  exact rampCheck_completes s

/-! ## Under LOOP_FAST -/

/-- `es` are the events to come from `s`, `e` ms after the last firing; `pre` is the tick that still waits
for its poll, if there is one. Without one the next firing is not due. -/
structure OnCadence (s : State) (pre es : List Event) (e : Nat) : Prop where
  ready : RampReady s
  phase : s.tick = s.lastStepTick + BitVec.ofNat 32 e
  waiting : (pre = [] ∧ e < 20) ∨ (pre = [.tick] ∧ e ≤ 20)
  fast : LoopFast (pre ++ es)
  polled : (pre ++ es).getLast? ≠ some .tick
  only : ∀ x ∈ es, x = .tick ∨ x = .loop

theorem OnCadence.withEvents {s : State} {pre es : List Event} {e : Nat} (h : OnCadence s pre es e)
    (rest : List Event) : OnCadence { s with events := rest } pre es e :=
  ⟨h.ready.withEvents rest, h.phase, h.waiting, h.fast, h.polled, h.only⟩

/-- A tick comes only when the one before has been polled, and waits for its own poll. -/
theorem OnCadence.tick {s t : State} {pre es : List Event} {e : Nat} (h : OnCadence s pre (.tick :: es) e)
    (hrun : tickEvent s = .next t) : OnCadence t [.tick] es (e + 1) ∧ RampRan s t 1 0 := by
  obtain ⟨hready, hran⟩ := tickEvent_ran h.ready hrun
  have hfast := h.fast
  have hpolled := h.polled
  rcases h.waiting with ⟨rfl, he⟩ | ⟨rfl, -⟩
  · refine ⟨⟨hready, ?phase, .inr ⟨rfl, he⟩, hfast, hpolled, fun x hx => h.only x (.tail _ hx)⟩, hran⟩
    case phase =>
      obtain rfl := Host.Outcome.next.inj hrun
      exact (congrArg (· + 1) h.phase).trans (by rw [BitVec.ofNat_add, BitVec.add_assoc]; rfl)
  · exact absurd hfast LoopFast.not_tick_tick

/-- A poll fires when it is due, and then no tick waits. -/
theorem OnCadence.loop {s t : State} {pre es : List Event} {e : Nat} (h : OnCadence s pre (.loop :: es) e)
    (hrun : loopEvent s = .next t) :
    ∃ e' f, OnCadence t [] es e' ∧ RampRan s t 0 f ∧ e = 20 * f + e' := by
  have hfast : LoopFast es := by
    have hall := h.fast
    rcases h.waiting with ⟨rfl, -⟩ | ⟨rfl, -⟩
    · exact hall.tail
    · exact hall.tail.tail
  have hpolled : es.getLast? ≠ some .tick := fun hlast => h.polled (by
    rw [List.append_cons, List.getLast?_append, hlast, Option.some_or])
  have honly : ∀ x ∈ es, x = .tick ∨ x = .loop := fun x hx => h.only x (.tail _ hx)
  have he : e < 20 ∨ e = 20 := by
    rcases h.waiting with ⟨-, he⟩ | ⟨-, he⟩
    · exact .inl he
    · exact he.lt_or_eq
  rcases he with he | rfl
  · obtain rfl := Host.Outcome.next.inj ((loopEvent_waits h.ready h.phase he).symm.trans hrun)
    exact ⟨e, 0, ⟨h.ready, h.phase, .inl ⟨rfl, he⟩, hfast, hpolled, honly⟩, RampRan.refl _, by omega⟩
  · obtain ⟨hready, hran, hsample, -⟩ := loopEvent_fires h.ready h.phase hrun
    have hphase : t.tick = t.lastStepTick + BitVec.ofNat 32 0 := hsample ▸ (BitVec.add_zero _).symm
    exact ⟨0, 1, ⟨hready, hphase, .inl ⟨rfl, by decide⟩, hfast, hpolled, honly⟩, hran, rfl⟩

/-- Each event keeps the cadence; ticks not spent on a firing stay in the phase. -/
theorem OnCadence.event {s t : State} {pre es : List Event} {x : Event} {e : Nat}
    (h : OnCadence s pre (x :: es) e) (hrun : runEvent x s = .next t) :
    ∃ pre' e' f, OnCadence t pre' es e' ∧ RampRan s t (List.count .tick [x]) f ∧
      e + List.count .tick [x] = 20 * f + e' := by
  rcases h.only x List.mem_cons_self with rfl | rfl
  · obtain ⟨hnext, hran⟩ := h.tick hrun
    exact ⟨[.tick], e + 1, 0, hnext, hran, (Nat.zero_add (e + 1)).symm⟩
  · obtain ⟨e', f, hnext, hran, hsum⟩ := h.loop hrun
    exact ⟨[], e', f, hnext, hran, hsum⟩

/-- Neither a tick nor a poll without a line can fault. -/
theorem OnCadence.completes {n : Nat} {s : State} {pre : List Event} {e : Nat}
    (h : OnCadence s pre (executed (n + 1) s) e) : ∃ t, step s = .next t := by
  rcases step_stops s with hnext | ⟨⟨-, -, hr, -⟩, -⟩ | ⟨-, hfault⟩
  · exact hnext
  · exact absurd (h.ready.idle.symm.trans hr) nofun
  · obtain ⟨x, rest, -, hrun, hes⟩ := executed_of_fault (n := n) hfault
    rcases h.only x (hes ▸ List.mem_cons_self) with rfl | rfl
    · cases hrun
    · obtain ⟨t, hloop⟩ := loopEvent_completes_of_idle (s := { s with events := rest }) h.ready.idle
      exact absurd (hloop.symm.trans hrun) nofun

/-- A run on the cadence completes and fires once for each 20 ms, the phase it began in included. -/
theorem OnCadence.run {n : Nat} {s : State} {pre : List Event} {e : Nat}
    (h : OnCadence s pre (executed n s) e) :
    ∃ t, runFor n s = .next t ∧
      RampRan s t ((executed n s).count .tick) ((e + (executed n s).count .tick) / 20) := by
  induction n generalizing s pre e with
  | zero =>
    have he : e < 20 := by
      rcases h.waiting with ⟨-, he⟩ | ⟨rfl, -⟩
      · exact he
      · exact absurd rfl h.polled
    refine ⟨s, rfl, ?_⟩
    rw [executed, List.count_nil, Nat.add_zero, Nat.div_eq_of_lt he]
    exact RampRan.refl s
  | succ n ih =>
    obtain ⟨u, hstep⟩ := h.completes
    rw [run_succ_of_next n hstep]
    rcases executed_succ (n := n) hstep with ⟨rest, -, -, rfl, hes⟩ | ⟨x, rest, -, hrun, hes⟩ <;>
      rw [hes] at h ⊢
    · obtain ⟨t, hrest, hran⟩ := ih (h.withEvents rest)
      exact ⟨t, hrest, hran.of_events⟩
    · obtain ⟨pre', e', f, hnext, hfirst, hsum⟩ := (h.withEvents rest).event hrun
      obtain ⟨t, hrest, hran⟩ := ih hnext
      have hcount : (x :: executed n u).count .tick = List.count .tick [x] + (executed n u).count .tick :=
        List.count_append (l₁ := [x])
      have hfirings : (e + (x :: executed n u).count .tick) / 20 =
          f + (e' + (executed n u).count .tick) / 20 := by omega
      rw [hfirings, hcount]
      exact ⟨t, hrest, (hfirst.trans hran).of_events⟩

/-! ## Rounds of twenty ticks and one poll -/

theorem runFor_ticks (k : Nat) {s : State} {rest : List Event} (hs : RampReady s)
    (he : s.events = List.replicate k .tick ++ rest) :
    ∃ t, runFor k s = .next t ∧ t.events = rest ∧ RampReady t ∧ RampRan s t k 0 := by
  induction k generalizing s with
  | zero => exact ⟨s, rfl, he, hs, RampRan.refl s⟩
  | succ k ih =>
    have hstep : step s = .next _ := step_enabled (e := .tick) he hs.booted
    obtain ⟨hready, hfirst⟩ := tickEvent_ran (hs.withEvents (List.replicate k .tick ++ rest)) rfl
    obtain ⟨t, hrun, hte, htr, hran⟩ := ih hready rfl
    refine ⟨t, (run_succ_of_next k hstep).trans hrun, hte, htr, ?_⟩
    rw [Nat.add_comm k 1]
    exact (hfirst.trans hran).of_events

theorem runFor_cadenceRound {s : State} {rest : List Event} (hs : RampReady s)
    (hsampled : s.lastStepTick = s.tick) (he : s.events = cadenceRound ++ rest) :
    ∃ t, runFor 21 s = .next t ∧ t.events = rest ∧ RampReady t ∧ RampRan s t 20 1 ∧
      t.lastStepTick = t.tick := by
  rw [cadenceRound, List.append_assoc] at he
  obtain ⟨u, hticks, hue, hur, hran⟩ := runFor_ticks 20 hs he
  have hphase : u.tick = u.lastStepTick + BitVec.ofNat 32 20 := by
    rw [hran.tick, hran.last, hsampled]
    exact congrArg (· + BitVec.ofNat 32 20) (BitVec.add_zero s.tick).symm
  obtain ⟨t, hloop⟩ := loopEvent_completes_of_idle (s := { u with events := rest }) hur.idle
  obtain ⟨htr, hfired, hsample, hte⟩ := loopEvent_fires (hur.withEvents rest) hphase hloop
  have hstep : step u = .next t := (step_loop hur.booted hue).trans hloop
  refine ⟨t, ?_, hte, htr, hran.trans hfired.of_events, hsample⟩
  rw [run_add_of_next 20 1 hticks, run_succ_of_next 0 hstep, runFor_zero]

theorem runFor_cadenceRounds (n : Nat) {s : State} {rest : List Event} (hs : RampReady s)
    (hsampled : s.lastStepTick = s.tick) (he : s.events = cadenceRounds n ++ rest) :
    ∃ t, runFor (21 * n) s = .next t ∧ t.events = rest ∧ RampRan s t (20 * n) n ∧
      t.lastStepTick = t.tick := by
  induction n generalizing s with
  | zero => exact ⟨s, rfl, he, RampRan.refl s, hsampled⟩
  | succ n ih =>
    have hsplit : s.events = cadenceRound ++ (cadenceRounds n ++ rest) := by
      rw [he, cadenceRounds, cadenceRounds, List.replicate_succ, List.flatten_cons, List.append_assoc]
    obtain ⟨u, hround, hue, hur, hfirst, husampled⟩ := runFor_cadenceRound hs hsampled hsplit
    obtain ⟨t, hrun, hte, hran, htsampled⟩ := ih hur husampled hue
    refine ⟨t, ?_, hte, ?_, htsampled⟩
    · rw [Nat.mul_succ, Nat.add_comm, run_add_of_next 21 (21 * n) hround, hrun]
    · rw [Nat.mul_succ, Nat.add_comm, Nat.add_comm n 1]
      exact hfirst.trans hran

/-- Settles O47: `OnCadence.run` from a state where no tick waits, and `runFor_cadenceRounds`. -/
theorem rampReachesTheTargetInItsDistanceOfRounds : Obligations.RampReachesTheTargetInItsDistanceOfRounds := by
  refine ⟨fun s n e k f hb hidle hinv he hphase hfast honly hpolled hk hf => ?fast,
    fun s n rest hb hidle hinv hsampled hevents => ?rounds⟩
  case fast =>
    subst hf hk
    obtain ⟨t, hrun, hran⟩ := OnCadence.run (pre := [])
      ⟨⟨hb, hidle, hinv⟩, hphase, .inl ⟨rfl, he⟩, hfast, hpolled, honly⟩
    exact ⟨t, hrun, hran.target, hran.tick, hran.last, hran.duty⟩
  case rounds =>
    obtain ⟨t, hrun, hte, hran, htsampled⟩ := runFor_cadenceRounds n ⟨hb, hidle, hinv⟩ hsampled hevents
    exact ⟨t, hrun, hte, hran.target, hran.tick, htsampled, hran.duty⟩

end Sys2Proof.Machine
end

section
/-! Which registers each instruction may write (10_state.md R47): the access summary row by row (`RowFrame`),
and the same table read by columns. -/

namespace Sys2Proof.Machine

/-- The row of R47 for `i`, as what it may have written when it leads from `s` to `t`: every field of `t`
outside the row is the field of `s`. The port log, the model's own (log 8), is free in every row that
acts at a port. -/
def RowFrame (i : Instr) (s t : State) : Prop :=
  match i with
  | .rxCr | .rxLf => t = { s with
      lineBuf := t.lineBuf, writeIndex := t.writeIndex, lineReady := t.lineReady, rxArmed := t.rxArmed,
      portLog := t.portLog }
  | .rxData _ => t = { s with
      lineBuf := t.lineBuf, writeIndex := t.writeIndex, rxArmed := t.rxArmed, portLog := t.portLog }
  | .rearm => t = { s with rxArmed := t.rxArmed, portLog := t.portLog }
  | .take => t = { s with lineReady := t.lineReady }
  | .set _ => t = { s with dutyTarget := t.dutyTarget, txLog := t.txLog, portLog := t.portLog }
  | .setTarget _ => t = { s with dutyTarget := t.dutyTarget }
  | .start | .stop | .facadeStart _ | .facadeStop _ => t = { s with
      enabled := t.enabled, outEn := t.outEn, txLog := t.txLog, portLog := t.portLog }
  | .status | .unknown | .setFrequencyReject _ => t = { s with txLog := t.txLog, portLog := t.portLog }
  | .freq _ | .setFrequencyAccept _ => t = { s with
      freqHz := t.freqHz, period := t.period, dutyNow := t.dutyNow, pulse1 := t.pulse1, pulse2 := t.pulse2,
      pulse3 := t.pulse3, outEn := t.outEn, enabled := t.enabled, txLog := t.txLog, portLog := t.portLog }
  | .setDuty _ => t = { s with
      dutyNow := t.dutyNow, pulse1 := t.pulse1, pulse2 := t.pulse2, pulse3 := t.pulse3, portLog := t.portLog }
  | .rampUp | .rampDown => t = { s with
      dutyNow := t.dutyNow, pulse1 := t.pulse1, pulse2 := t.pulse2, pulse3 := t.pulse3,
      lastStepTick := t.lastStepTick, portLog := t.portLog }
  | .rampHold => t = { s with lastStepTick := t.lastStepTick }

/-! ## The rows -/

theorem pwmStart_rowFrame (announce : Bool) (s : State) :
    RowFrame (.facadeStart announce) s (pwmStart announce s) := by
  rw [pwmStart_eq]
  rfl

theorem pwmStop_rowFrame (announce : Bool) (s : State) :
    RowFrame (.facadeStop announce) s (pwmStop announce s) := by
  rw [pwmStop_eq]
  rfl

theorem pwmSetFrequency_rowFrame (f : Int) (s : State) : RowFrame (.freq f) s (pwmSetFrequency f s) := by
  obtain ⟨_, _, _, _, _, _, _, _, _, _, he⟩ := pwmSetFrequency_frame f s
  rw [he]
  rfl

theorem take_rowFrame {s t : State} (h : exec .take s = .next t) : RowFrame .take s t := by
  rw [exec_take, execTake] at h
  rcases takeLine_cases s with ⟨-, he⟩ | ⟨L, -, -, he⟩ | ⟨-, -, he⟩ <;> rw [he] at h
  · exact Host.Outcome.next.inj h ▸ rfl
  · exact Host.Outcome.next.inj h ▸ rfl
  · cases h

/-- Every instruction keeps to its row. -/
theorem exec_rowFrame {i : Instr} {s t : State} (hwf : i.wf = true) (h : exec i s = .next t) :
    RowFrame i s t := by
  have of_next : ∀ {u : State}, (.next u : Host.Outcome State Fault Refusal) = .next t →
      RowFrame i s u → RowFrame i s t := fun hu hrow => Host.Outcome.next.inj hu ▸ hrow
  cases i with
  | set v => exact of_next h rfl
  | freq f => exact of_next h (pwmSetFrequency_rowFrame f s)
  | start => exact of_next h (pwmStart_rowFrame true s)
  | stop => exact of_next h (pwmStop_rowFrame true s)
  | status => exact of_next h rfl
  | unknown => exact of_next h rfl
  | rxCr => exact (receive_next (b := CR) h).2 ▸ rfl
  | rxLf => exact (receive_next (b := LF) h).2 ▸ rfl
  | rxData b => exact (receive_next (b := b) h).2 ▸ rfl
  | rampUp => exact of_next h rfl
  | rampDown => exact of_next h rfl
  | rampHold => exact of_next h rfl
  | rearm => exact of_next h rfl
  | take => exact take_rowFrame h
  | facadeStart announce => exact of_next h (pwmStart_rowFrame announce s)
  | facadeStop announce => exact of_next h (pwmStop_rowFrame announce s)
  | setDuty duty => exact of_next h rfl
  | setTarget d => exact of_next h rfl
  | setFrequencyAccept f => exact of_next h (pwmSetFrequency_rowFrame f s)
  | setFrequencyReject f =>
    have hout : f < 1000 ∨ 50000 < f := by simpa [Instr.wf] using hwf
    exact of_next h (pwmSetFrequency_rejected hout s ▸ rfl)

/-! ## The columns -/

/-- Settles O52: `exec_rowFrame`, and in each row of the table the columns outside it stand unchanged. -/
theorem eachRegisterHasItsWriters : Obligations.EachRegisterHasItsWriters := by
  intro i s t hwf h
  have hrow := exec_rowFrame hwf h
  cases i <;>
    (rw [RowFrame] at hrow
     rw [hrow]
     simp [SameMemory, State.lineByte, Instr.format, Instr.isCommand])

end Sys2Proof.Machine
end

section
/-! Reception commutes with the main loop's operations (44_main_loop.md section 3, decision D1). A command or a
ramp row passes through any change of the receiver's state (`exec_withReceiver`), a byte reads nothing but
that state, and the port log, in which alone the order shows, is read by neither. -/

namespace Sys2Proof.Machine

/-! ## What a command does not read -/

/-- `s` with another state of the receiver. -/
def withReceiver (buf : Memory) (index : Nat) (ready armed : Bool) (s : State) : State :=
  { s with lineBuf := buf, writeIndex := index, lineReady := ready, rxArmed := armed }

theorem pwmSetFrequency_withReceiver (f : Int) (buf : Memory) (index : Nat) (ready armed : Bool) (s : State) :
    pwmSetFrequency f (withReceiver buf index ready armed s) =
      withReceiver buf index ready armed (pwmSetFrequency f s) := by
  rcases pwmSetFrequency_cases f s with ⟨hlo, hhi, he⟩ | ⟨hout, he⟩ <;> rw [he]
  · rw [pwmSetFrequency_accepted hlo hhi, setFrequencyAccepted_eq, setFrequencyAccepted_eq]
    rfl
  · rw [pwmSetFrequency_rejected hout]
    rfl

theorem exec_withReceiver {i : Instr} (hi : i.isCommand = true ∨ i.format = .RAMP) (buf : Memory)
    (index : Nat) (ready armed : Bool) (s : State) :
    exec i (withReceiver buf index ready armed s) =
      mapNext (withReceiver buf index ready armed) (exec i s) := by
  cases i with
  | freq f => exact congrArg Host.Outcome.next (pwmSetFrequency_withReceiver f buf index ready armed s)
  | set | start | stop | status | unknown | rampUp | rampDown | rampHold => rfl
  | _ => rcases hi with hi | hi <;> cases hi

/-- `s` with the order of its port actions forgotten. -/
def withoutPorts (s : State) : State :=
  { s with portLog := [] }

/-- No instruction reads the port log (`exec_addLogs`). -/
theorem exec_withoutPorts (i : Instr) (s : State) (ports : List PortAction) :
    mapNext withoutPorts (exec i { s with portLog := ports }) = mapNext withoutPorts (exec i s) := by
  have hruns : ∀ l, mapNext withoutPorts (exec i { s with portLog := l }) =
      mapNext withoutPorts (exec i (withoutPorts s)) := by
    intro l
    have hlogs : { s with portLog := l } = addLogs [] l (withoutPorts s) := by
      simp only [addLogs, withoutPorts, List.append_nil, List.nil_append]
    rw [hlogs, exec_addLogs]
    cases exec i (withoutPorts s) <;> rfl
  exact (hruns ports).trans (hruns s.portLog).symm

/-! ## What a byte reads -/

/-- What a byte's handling leaves of the receiver's state depends on that state and the capacity only, and
it leaves everything else but the port log. -/
theorem receive_of_same_receiver {op : State → State} (hop : op = terminateLine ∨ op = advanceIndex) (b : Byte)
    {s t : State} (hbuf : t.lineBuf = s.lineBuf) (hindex : t.writeIndex = s.writeIndex)
    (hready : t.lineReady = s.lineReady) (hcfg : t.cfg = s.cfg) :
    ∃ buf index ready ports ports',
      rearm (op (landing b s)) = withReceiver buf index ready true { s with portLog := ports } ∧
      rearm (op (landing b t)) = withReceiver buf index ready true { t with portLog := ports' } := by
  rcases hop with rfl | rfl
  · refine ⟨(s.lineBuf.write s.writeIndex b).write s.writeIndex 0x00, 0, true, s.portLog ++ [.arm 0],
      t.portLog ++ [.arm 0], rfl, ?_⟩
    rw [← hbuf, ← hindex]
    rfl
  · refine ⟨s.lineBuf.write s.writeIndex b, (advanceIndex s).writeIndex, s.lineReady,
      s.portLog ++ [.arm (advanceIndex s).writeIndex], t.portLog ++ [.arm (advanceIndex t).writeIndex], rfl, ?_⟩
    have hnext : (advanceIndex s).writeIndex = (advanceIndex t).writeIndex := by
      rw [advanceIndex, advanceIndex, hindex, hcfg]
    rw [hnext, ← hbuf, ← hindex, ← hready]
    rfl

/-! ## Both orders -/

/-- A command or ramp row neither is a byte operation nor takes or arms anything. -/
theorem mainLoop_not_receiver {i : Instr} (hi : i.isCommand = true ∨ i.format = .RAMP) :
    i.format ≠ .BYTE ∧ i ≠ .take := by
  rcases hi with hi | hi
  · obtain ⟨hbyte, htake, -⟩ := isCommand_not_byte hi
    exact ⟨hbyte, htake⟩
  · exact ⟨hi ▸ nofun, fun htake => absurd (htake ▸ hi) nofun⟩

/-- Executing after the byte, then forgetting the order of the port actions, is executing before it. -/
theorem exec_after_receiver {i : Instr} (hi : i.isCommand = true ∨ i.format = .RAMP) {s t : State}
    (h : exec i s = .next t) (buf : Memory) (index : Nat) (ready armed : Bool) (ports : List PortAction) :
    mapNext withoutPorts (exec i (withReceiver buf index ready armed { s with portLog := ports })) =
      .next (withReceiver buf index ready armed (withoutPorts t)) := by
  obtain ⟨hbyte, htake⟩ := mainLoop_not_receiver hi
  obtain ⟨u, hu⟩ := exec_completes i { s with portLog := ports } hbyte htake
  have hports := exec_withoutPorts i s ports
  rw [hu, h, mapNext_next, mapNext_next] at hports
  rw [exec_withReceiver hi, hu]
  exact congrArg (fun v => Host.Outcome.next (withReceiver buf index ready armed v))
    (Host.Outcome.next.inj hports)

/-- Settles O53: outside the buffer both orders fault at the byte; inside, both leave the byte's receiver
state and the row's state of everything else. -/
theorem receptionCommutesWithCommands : Obligations.ReceptionCommutesWithCommands := by
  intro b i s hi
  obtain ⟨hbyte, htake⟩ := mainLoop_not_receiver hi
  obtain ⟨t, hexec⟩ := exec_completes i s hbyte htake
  obtain ⟨hbuf, hindex, hready, -⟩ := exec_receiver_frame hbyte htake hexec
  obtain ⟨_, hgrew⟩ := exec_grew hexec
  obtain ⟨b', op, hop, hreceive⟩ := exec_byte_eq_receive (decodeByte_format b)
  rw [hexec, andThen_next, hreceive, hreceive]
  by_cases hinside : s.writeIndex < s.cfg.cap
  · obtain ⟨buf, index, ready, ports, ports', hs, ht⟩ :=
      receive_of_same_receiver hop b' hbuf hindex hready hgrew.cfg
    rw [receive_eq b' op hinside, receive_eq b' op (hindex ▸ hgrew.cfg ▸ hinside), hs, ht, andThen_next]
    exact exec_after_receiver hi hexec buf index ready true ports
  · rw [receive_outside b' op hinside, receive_outside b' op (hindex ▸ hgrew.cfg ▸ hinside), andThen_fault]

end Sys2Proof.Machine
end
